-- ==== Sys2Proof/Word.lean ====
section
/-! DEFINITION. The word and byte types of the engine (R7, R16, R19 of 00_scope.md). -/

namespace Sys2Proof

/-- A datapath word: an unsigned 32-bit value (R7, R16). `+` on words wraps modulo 2^32 (R17). -/
abbrev Word := BitVec 32

/-- A byte: an unsigned 8-bit value (R19). -/
abbrev Byte := BitVec 8

end Sys2Proof
end

