-- ==== Sys2Proof/Machine/Alu.lean ====
section
/-! DEFINITION. The functions of the 32-bit rotator/shifter ALU (43_alu.md). Each is a pure total function of words: no
flag, no error, no state (R201). The schedule expander and the compression engine use these same functions (R98, R175). -/

namespace Sys2Proof.Machine

/-- ADD: addition modulo 2^32, the carry discarded (R185, R17). -/
def Alu.add (a b : Word) : Word := a + b

/-- XOR (R187). -/
def Alu.xor (a b : Word) : Word := a ^^^ b

/-- AND (R188). -/
def Alu.and (a b : Word) : Word := a &&& b

/-- NOT (R189). -/
def Alu.not (a : Word) : Word := ~~~a

/-- ROTR: rotate right by s = 0..31 (R190, R191). -/
def Alu.rotr (a : Word) (s : BitVec 5) : Word := a.rotateRight s.toNat

/-- SHR: logical shift right by s = 0..31 (R190, R192). -/
def Alu.shr (a : Word) (s : BitVec 5) : Word := a >>> s.toNat

/-- Σ0: rotations by 2, 13, 22 (R194; the joining exclusive-or is G4, log entry 16). -/
def Alu.bsig0 (a : Word) : Word := Alu.xor (Alu.xor (Alu.rotr a 2) (Alu.rotr a 13)) (Alu.rotr a 22)

/-- Σ1: rotations by 6, 11, 25 (R195; the joining exclusive-or is G4, log entry 16). -/
def Alu.bsig1 (a : Word) : Word := Alu.xor (Alu.xor (Alu.rotr a 6) (Alu.rotr a 11)) (Alu.rotr a 25)

/-- σ0: rotations by 7, 18 and a shift by 3 (R196). -/
def Alu.ssig0 (a : Word) : Word := Alu.xor (Alu.xor (Alu.rotr a 7) (Alu.rotr a 18)) (Alu.shr a 3)

/-- σ1: rotations by 17, 19 and a shift by 10 (R197). -/
def Alu.ssig1 (a : Word) : Word := Alu.xor (Alu.xor (Alu.rotr a 17) (Alu.rotr a 19)) (Alu.shr a 10)

/-- CH: A chooses B or C, bit by bit (R199). -/
def Alu.ch (a b c : Word) : Word := Alu.xor (Alu.and a b) (Alu.and (Alu.not a) c)

/-- MAJ: bitwise majority (R200). -/
def Alu.maj (a b c : Word) : Word := Alu.xor (Alu.xor (Alu.and a b) (Alu.and a c)) (Alu.and b c)

end Sys2Proof.Machine
end

