-- ==== Sys2Proof/Machine/Bytes.lean ====
section
/-! DEFINITION. Byte order: the big-endian conversions of R20 (00_scope.md), applied as R60 to R64 (20_memory.md) say. -/

namespace Sys2Proof.Machine

/-- be32: the word of four bytes, most significant first (R20). -/
def be32 (b0 b1 b2 b3 : Byte) : Word :=
  b0.setWidth 32 <<< 24 ||| b1.setWidth 32 <<< 16 ||| b2.setWidth 32 <<< 8 ||| b3.setWidth 32

/-- be32_bytes: the four bytes of a word, most significant first (R20). -/
def be32Bytes (w : Word) : List Byte :=
  [w.extractLsb' 24 8, w.extractLsb' 16 8, w.extractLsb' 8 8, w.extractLsb' 0 8]

/-- be64_bytes: the eight bytes of a 64-bit value, most significant first (R20). -/
def be64Bytes (v : BitVec 64) : List Byte :=
  [v.extractLsb' 56 8, v.extractLsb' 48 8, v.extractLsb' 40 8, v.extractLsb' 32 8,
   v.extractLsb' 24 8, v.extractLsb' 16 8, v.extractLsb' 8 8, v.extractLsb' 0 8]

/-- `zeros(k)`: k bytes of 0x00 (R123). -/
def zeros (k : Nat) : List Byte := List.replicate k 0

/-- A block as big-endian words, four bytes each (R60): 16 words for the 64 bytes of a block. -/
def blockWords : List Byte → List Word
  | b0 :: b1 :: b2 :: b3 :: rest => be32 b0 b1 b2 b3 :: blockWords rest
  | _ => []

/-- The digest of a hash state: its words' big-endian bytes, H[0] first (R62, R128). -/
def digestBytes (h : HashState) : List Byte := h.words.flatMap be32Bytes

/-- The response word that carries a digest: byte 0 at the top, rsp[255−8k : 248−8k] = d[k] (R87). -/
def rspWord (d : List Byte) : BitVec 256 := d.foldl (fun acc b => acc <<< 8 ||| b.setWidth 256) 0

end Sys2Proof.Machine
end

