-- ==== Sys2Proof/Machine/Schedule.lean ====
section
/-! DEFINITION. The message-schedule expander (R170 to R176 of 42_schedule_rom.md). Total and pure; the schedule lives
inside one compression only (R46, R174). -/

namespace Sys2Proof.Machine

/-- W[t] of a schedule that holds it. No rule reads a W[t] that is not there (R48, R173; log entry 17). -/
def wordAt (W : List Word) (t : Nat) : Word := W.getD t 0

/-- W[t] = σ1(W[t−2]) + W[t−7] + σ0(W[t−15]) + W[t−16], for t the number of words so far (R171). -/
def nextWord (W : List Word) : Word :=
  Alu.add
    (Alu.add (Alu.add (Alu.ssig1 (wordAt W (W.length - 2))) (wordAt W (W.length - 7)))
      (Alu.ssig0 (wordAt W (W.length - 15))))
    (wordAt W (W.length - 16))

/-- Expand a schedule by n words (R171). -/
def expandWords : Nat → List Word → List Word
  | 0, W => W
  | n + 1, W => expandWords n (W ++ [nextWord W])

/-- Schedule: the block's 16 words (R170), then 48 more (R172). -/
def schedule (blk : List Byte) : List Word := expandWords 48 (blockWords blk)

end Sys2Proof.Machine
end

