-- ==== Sys2Proof/Machine/Compression.lean ====
section
/-! DEFINITION. The compression engine (R150 to R159 of 41_compression.md). The equations of a round and the pairing of
a..h with H[0..7] are FIPS 180-4's, as the spec supplies them (G3, G5; log entry 16). -/

namespace Sys2Proof.Machine

/-- The working variables a..h, local to one compression (R47, R48). -/
structure Vars where
  a : Word
  b : Word
  c : Word
  d : Word
  e : Word
  f : Word
  g : Word
  h : Word
  deriving DecidableEq, Repr

/-- T1 = h + Σ1(e) + CH(e,f,g) + K[t] + W[t] (R152). -/
def roundT1 (t : Nat) (v : Vars) (wt : Word) : Word :=
  Alu.add (Alu.add (Alu.add (Alu.add v.h (Alu.bsig1 v.e)) (Alu.ch v.e v.f v.g)) (romK t)) wt

/-- T2 = Σ0(a) + MAJ(a,b,c) (R152). -/
def roundT2 (v : Vars) : Word := Alu.add (Alu.bsig0 v.a) (Alu.maj v.a v.b v.c)

/-- Round t (R152, R154). -/
def round (t : Nat) (v : Vars) (wt : Word) : Vars :=
  { a := Alu.add (roundT1 t v wt) (roundT2 v), b := v.a, c := v.b, d := v.c,
    e := Alu.add v.d (roundT1 t v wt), f := v.e, g := v.f, h := v.g }

/-- Rounds 0, 1, …, n − 1 in order, round t on W[t] (R153). -/
def rounds : Nat → List Word → Vars → Vars
  | 0, _, v => v
  | n + 1, W, v => round n (rounds n W v) (wordAt W n)

/-- Seeding: a..h start as H[0..7] (R151). -/
def seed (h : HashState) : Vars :=
  { a := h.h0, b := h.h1, c := h.h2, d := h.h3, e := h.h4, f := h.h5, g := h.h6, h := h.h7 }

/-- The state update: each word plus its working variable, modulo 2^32 (R156). -/
def updateState (h : HashState) (v : Vars) : HashState :=
  { h0 := Alu.add h.h0 v.a, h1 := Alu.add h.h1 v.b, h2 := Alu.add h.h2 v.c, h3 := Alu.add h.h3 v.d,
    h4 := Alu.add h.h4 v.e, h5 := Alu.add h.h5 v.f, h6 := Alu.add h.h6 v.g, h7 := Alu.add h.h7 v.h }

/-- Compress: a pure total function of the hash state and one 64-byte block (R150, R159). Its callers pass exactly 64
bytes (log entry 17). -/
def compress (h : HashState) (blk : List Byte) : HashState :=
  updateState h (rounds 64 (schedule blk) (seed h))

end Sys2Proof.Machine
end

