-- ==== Sys2Proof/Config.lean ====
section
/-! DEFINITION. What the spec leaves open and the machine goes on from: the free values of a STATUS read taken during
a command (R250 of 70_reset_and_hazards.md). The latencies of R14 (00_scope.md) are open too, and no rule reads them. -/

namespace Sys2Proof

/-- The STATUS fields whose value is open while a command executes (R250). -/
inductive StatusField where
  | consumed | err | errcode
  deriving DecidableEq, Repr

/-- Free value (R250, U4): does the `read`-th STATUS read show this field's value AFTER the command in progress (true)
or BEFORE it (false)? The spec fixes neither, so nothing here does: no body. Log entry 10. -/
opaque Config.statusDraw (read : Nat) (field : StatusField) : Bool

end Sys2Proof
end

