-- ==== Sys2Proof/Syntax.lean ====
section
/-! DEFINITION. The instructions: one constructor per row of spec/opcode_table.json. -/

namespace Sys2Proof

/-- Every row of the opcode table: the three host commands, the five classes of command word that spell no command
(R91, R93, R94 of 30_encoding.md), the twelve ALU micro-ops and the reserved micro-op functions (R99, R100). -/
inductive Instr where
  /-- INIT (R116). -/
  | init
  /-- ABSORB: `arg` is the payload length in bytes (R92, R119). -/
  | absorb (arg : BitVec 28)
  /-- FINALIZE (R123). -/
  | finalize
  /-- OP = 0x1 with ARG ≠ 0 (R93). -/
  | illegalInitArg (arg : BitVec 28)
  /-- OP = 0x3 with ARG ≠ 0 (R93). -/
  | illegalFinalizeArg (arg : BitVec 28)
  /-- OP = 0x0, any ARG (R94). -/
  | illegalOp0 (arg : BitVec 28)
  /-- OP = 0x4..0x7, its two low bits and any ARG (R94). -/
  | illegalOp4to7 (low : BitVec 2) (arg : BitVec 28)
  /-- OP = 0x8..0xF, its three low bits and any ARG (R94). -/
  | illegalOp8toF (low : BitVec 3) (arg : BitVec 28)
  /-- ADD A, B (R185). -/
  | aluAdd
  /-- XOR A, B (R187). -/
  | aluXor
  /-- AND A, B (R188). -/
  | aluAnd
  /-- NOT A (R189). -/
  | aluNot
  /-- ROTR A, SHAMT (R191). -/
  | aluRotr (shamt : BitVec 5)
  /-- SHR A, SHAMT (R192). -/
  | aluShr (shamt : BitVec 5)
  /-- Σ0 of A (R194). -/
  | aluBsig0
  /-- Σ1 of A (R195). -/
  | aluBsig1
  /-- σ0 of A (R196). -/
  | aluSsig0
  /-- σ1 of A (R197). -/
  | aluSsig1
  /-- CH A, B, C (R199). -/
  | aluCh
  /-- MAJ A, B, C (R200). -/
  | aluMaj
  /-- FN = 0xC..0xF: its two low function bits and the rest of the word (R99, R100). -/
  | aluReserved (low : BitVec 2) (rest : BitVec 12)
  deriving DecidableEq, Repr

end Sys2Proof
end

