-- ==== Sys2Proof/WellFormed.lean ====
section
/-! DEFINITION. The terms of `Instr` that some word spells. -/

namespace Sys2Proof

/-- The one check the types do not make: the two NONZERO_ARG rows hold an ARG other than 0 (R93, R213); with ARG = 0
the word is INIT or FINALIZE. Log entry 19. -/
def Instr.wellFormed : Instr → Bool
  | .illegalInitArg arg => arg != 0
  | .illegalFinalizeArg arg => arg != 0
  | .init => true
  | .absorb _ => true
  | .finalize => true
  | .illegalOp0 _ => true
  | .illegalOp4to7 _ _ => true
  | .illegalOp8toF _ _ => true
  | .aluAdd => true
  | .aluXor => true
  | .aluAnd => true
  | .aluNot => true
  | .aluRotr _ => true
  | .aluShr _ => true
  | .aluBsig0 => true
  | .aluBsig1 => true
  | .aluSsig0 => true
  | .aluSsig1 => true
  | .aluCh => true
  | .aluMaj => true
  | .aluReserved _ _ => true

end Sys2Proof
end

