-- ==== Sys2Proof/Decode.lean ====
section
/-! DEFINITION. Decoding and encoding: command words (R90 to R95) and ALU micro-ops (R98 to R100), both of
30_encoding.md. A word is carried whole, so it has no byte order (R90). -/

namespace Sys2Proof

/-- What the decoder reads: a 32-bit word of the command channel, or a 16-bit word on the ALU's function select. -/
inductive Code where
  | cmd (w : BitVec 32)
  | uop (w : BitVec 16)
  deriving DecidableEq, Repr

/-- Why a micro-op word spells no table row (R100). A command word always spells one (R95). -/
inductive DecodeReject where
  /-- Bits 11:5 are not zero. -/
  | aluReservedBits
  /-- SHAMT is not zero for a function other than ROTR and SHR. -/
  | aluShamtNotTaken
  deriving DecidableEq, Repr

/-- A command word's operation code (R90). -/
def opField (w : BitVec 32) : BitVec 4 := w.extractLsb' 28 4

/-- A command word's argument (R90). -/
def argField (w : BitVec 32) : BitVec 28 := w.extractLsb' 0 28

/-- Decoding a command word is total (R95). -/
def decodeCmd (w : BitVec 32) : Instr :=
  if opField w = 0x0 then .illegalOp0 (argField w)
  else if opField w = 0x1 then
    if argField w = 0 then .init else .illegalInitArg (argField w)
  else if opField w = 0x2 then .absorb (argField w)
  else if opField w = 0x3 then
    if argField w = 0 then .finalize else .illegalFinalizeArg (argField w)
  else if (opField w).getLsbD 3 then .illegalOp8toF ((opField w).extractLsb' 0 3) (argField w)
  else .illegalOp4to7 ((opField w).extractLsb' 0 2) (argField w)

/-- A micro-op's function code (R98). -/
def fnField (w : BitVec 16) : BitVec 4 := w.extractLsb' 12 4

/-- A micro-op's reserved bits 11:5 (R98). -/
def reservedField (w : BitVec 16) : BitVec 7 := w.extractLsb' 5 7

/-- A micro-op's shift or rotate amount (R98, R103). -/
def shamtField (w : BitVec 16) : BitVec 5 := w.extractLsb' 0 5

/-- A function that takes no SHAMT: its SHAMT field must be 0 (R98, R100). -/
def withoutShamt (shamt : BitVec 5) (i : Instr) : Except DecodeReject Instr :=
  if shamt = 0 then .ok i else .error .aluShamtNotTaken

/-- The ALU function codes (R99); none for the reserved codes 0xC..0xF. -/
def aluFunction (fn : BitVec 4) (shamt : BitVec 5) : Option (Except DecodeReject Instr) :=
  if fn = 0x0 then some (withoutShamt shamt .aluAdd)
  else if fn = 0x1 then some (withoutShamt shamt .aluXor)
  else if fn = 0x2 then some (withoutShamt shamt .aluAnd)
  else if fn = 0x3 then some (withoutShamt shamt .aluNot)
  else if fn = 0x4 then some (.ok (.aluRotr shamt))
  else if fn = 0x5 then some (.ok (.aluShr shamt))
  else if fn = 0x6 then some (withoutShamt shamt .aluBsig0)
  else if fn = 0x7 then some (withoutShamt shamt .aluBsig1)
  else if fn = 0x8 then some (withoutShamt shamt .aluSsig0)
  else if fn = 0x9 then some (withoutShamt shamt .aluSsig1)
  else if fn = 0xA then some (withoutShamt shamt .aluCh)
  else if fn = 0xB then some (withoutShamt shamt .aluMaj)
  else none

/-- Decoding a micro-op: the reserved functions are a table row whatever their other bits; of the others, nonzero
bits 11:5 and an untaken SHAMT are rejected by name (R99, R100). -/
def decodeUop (w : BitVec 16) : Except DecodeReject Instr :=
  match aluFunction (fnField w) (shamtField w) with
  | none => .ok (.aluReserved (w.extractLsb' 12 2) (w.extractLsb' 0 12))
  | some r => if reservedField w = 0 then r else .error .aluReservedBits

/-- The decoder: total, and rejecting by name. -/
def decode : Code → Except DecodeReject Instr
  | .cmd w => .ok (decodeCmd w)
  | .uop w => decodeUop w

/-- The instruction read from a table row's word of `nbits` bits: a CMD32 row has one 32-bit word, an ALU16 row one
16-bit word. No row has another length. -/
def decodeTableWord (nbits w : Nat) : Option Instr :=
  if nbits = 32 then some (decodeCmd (BitVec.ofNat 32 w))
  else if nbits = 16 then (decodeUop (BitVec.ofNat 16 w)).toOption
  else none

/-- A command word from its two fields (R90). -/
def commandWord (op : BitVec 4) (arg : BitVec 28) : BitVec 32 := op ++ arg

/-- A micro-op word from its function code and SHAMT, bits 11:5 zero (R98). -/
def microOpWord (fn : BitVec 4) (shamt : BitVec 5) : BitVec 16 := fn ++ 0#7 ++ shamt

/-- The word of an instruction (R91, R99). -/
def encode : Instr → Code
  | .init => .cmd (commandWord 0x1 0)
  | .absorb arg => .cmd (commandWord 0x2 arg)
  | .finalize => .cmd (commandWord 0x3 0)
  | .illegalInitArg arg => .cmd (commandWord 0x1 arg)
  | .illegalFinalizeArg arg => .cmd (commandWord 0x3 arg)
  | .illegalOp0 arg => .cmd (commandWord 0x0 arg)
  | .illegalOp4to7 low arg => .cmd (commandWord (0b01#2 ++ low) arg)
  | .illegalOp8toF low arg => .cmd (commandWord (0b1#1 ++ low) arg)
  | .aluAdd => .uop (microOpWord 0x0 0)
  | .aluXor => .uop (microOpWord 0x1 0)
  | .aluAnd => .uop (microOpWord 0x2 0)
  | .aluNot => .uop (microOpWord 0x3 0)
  | .aluRotr shamt => .uop (microOpWord 0x4 shamt)
  | .aluShr shamt => .uop (microOpWord 0x5 shamt)
  | .aluBsig0 => .uop (microOpWord 0x6 0)
  | .aluBsig1 => .uop (microOpWord 0x7 0)
  | .aluSsig0 => .uop (microOpWord 0x8 0)
  | .aluSsig1 => .uop (microOpWord 0x9 0)
  | .aluCh => .uop (microOpWord 0xA 0)
  | .aluMaj => .uop (microOpWord 0xB 0)
  | .aluReserved low rest => .uop (0b11#2 ++ low ++ rest)

end Sys2Proof
end

