-- ==== Sys2Proof/Machine/State.lean ====
section
/-! DEFINITION. The state of the engine and of its ports, the reasons a step stops, and the state after reset. -/

namespace Sys2Proof.Machine

/-- Phase (R35): has a FINALIZE run since the last INIT or reset? -/
inductive Phase where
  | active | consumed
  deriving DecidableEq, Repr

/-- The command errors (R42, R211). -/
inductive CmdErrorCode where
  | illegalOpcode | nonzeroArg | useAfterFinalize
  deriving DecidableEq, Repr

/-- The buffer's contents: (index, byte) pairs, indexes strictly rising. An index that is not listed holds an
unspecified byte (R36, R51; log entry 5). -/
abbrev Memory := List Host.Cell

/-- What an unlisted index reads as: no value (R51 `none`; log entry 5). -/
def Memory.unlisted : Option Byte := none

/-- Is every listed index at least `a`, below 64, and above the one before it? -/
def Memory.risingFrom : Nat → Memory → Bool
  | _, [] => true
  | a, c :: m => decide (a ≤ c.1) && decide (c.1 < 64) && Memory.risingFrom (c.1 + 1) m

/-- The one canonical form: indexes 0..63 (R66), strictly rising. No entry can equal what an unlisted index reads as,
since an entry always holds a byte and an unlisted index holds none. -/
def Memory.wf (m : Memory) : Bool := m.risingFrom 0

/-- The engine state (R51): exactly the architectural items of 10_state.md §1 to §4. STATUS is a function of it and of
BUSY (R38, `Engine.status`); W, a..h and t are local to a compression (R48). -/
structure Engine where
  /-- H[0..7] (R32). -/
  h : HashState
  /-- LEN, in bytes of compressed blocks (R34). -/
  len : BitVec 64
  /-- BUF[0..63] (R36). -/
  buf : Memory
  /-- BUFCNT, 0..63 (R37, R12). -/
  bufcnt : BitVec 6
  /-- PHASE (R35). -/
  phase : Phase
  /-- STATUS.ERR, sticky (R40). -/
  err : Bool
  /-- STATUS.ERRCODE (R42). -/
  errcode : BitVec 4
  deriving DecidableEq, Repr

/-- A command accepted and not yet complete: it waits for its host (R247, R249; log entries 3 and 4). -/
inductive InFlight where
  /-- An ABSORB of `arg` bytes that has accepted the payload bytes `got` so far. -/
  | absorb (arg : BitVec 28) (got : List Byte)
  /-- A FINALIZE that presents its response and waits for the host to accept it. -/
  | finalize
  deriving DecidableEq, Repr

/-- The ALU's ports (R98): the function select, three operand inputs, one result output. -/
structure AluPort where
  /-- The micro-op word issued on the function select, if one is (log entry 14). -/
  uop : Option (BitVec 16)
  a : Word
  b : Word
  c : Word
  y : Word
  deriving DecidableEq, Repr

/-- The engine and its ports. -/
structure State where
  /-- The engine state (R51). -/
  engine : Engine
  /-- The command accepted and not complete; STATUS.BUSY is 1 exactly when there is one (R41). -/
  inflight : Option InFlight
  /-- Command channel: the words the host offers, oldest first (R85). -/
  cmd : List (BitVec 32)
  /-- Data channel: the bytes the host offers and the engine has not accepted, oldest first (R86, R248). -/
  din : List Byte
  /-- Response channel: rsp_ready (R87). -/
  rspReady : Bool
  /-- The responses the host has accepted, oldest first (R87). -/
  responses : List (BitVec 256)
  /-- rst, active high (R89). -/
  rst : Bool
  /-- The internal ALU's ports (R98). -/
  alu : AluPort
  /-- The MODEL's own: the run has raised a command error; never cleared (R218; log entry 9). -/
  faulted : Bool
  /-- The MODEL's own: how many times the host has read STATUS; indexes the free values of R250 (log entry 10). -/
  statusReads : Nat
  deriving DecidableEq, Repr

/-- Why the machine stops with a fault. No rule of the spec reaches either (U1, R66); a state that keeps the invariant
of Sys2Proof/Safety.lean never does. Both are safe: the model stops where it would need a value the spec does not give. -/
inductive Fault where
  /-- Raised by `memRead`: BUF[index] holds an unspecified byte (U1). Safe (log entry 6). -/
  | unspecifiedByte (index : Nat)
  /-- Raised by `memRead` and `memWrite`: index + length exceeds 64 (R66). Safe (log entry 7). -/
  | bufferRange (index length : Nat)
  deriving DecidableEq, Repr

/-- Why the machine gives no meaning. -/
inductive Refusal where
  /-- Raised by exec for an instruction with no meaning yet. Safe. -/
  | notModelled (mnemonic : String)
  /-- Raised by `execAluReserved`: FN = 0xC..0xF, which R100 has a model refuse. Safe (log entry 15). -/
  | reservedAluFunction
  /-- Raised by `step`: a micro-op word that spells no table row, which R100 has a model refuse. Safe (log entry 15). -/
  | malformedMicroOp (why : DecodeReject)
  deriving DecidableEq, Repr

/-- The engine state after hardware reset (R53, R240). -/
def Engine.reset : Engine :=
  { h := iv, len := 0, buf := [], bufcnt := 0, phase := .active, err := false, errcode := 0 }

/-- The ALU's ports with no micro-op issued; the words on them are a DESIGN CHOICE (log entry 13). -/
def AluPort.idle : AluPort := { uop := none, a := 0, b := 0, c := 0, y := 0 }

/-- The machine right after reset: the engine as R240 gives it, no command in flight (R241), rst released, and a host
that has offered nothing and is ready to accept responses (log entries 2, 11 and 12). -/
def State.reset : State :=
  { engine := Engine.reset, inflight := none, cmd := [], din := [], rspReady := true, responses := [], rst := false,
    alu := AluPort.idle, faulted := false, statusReads := 0 }

end Sys2Proof.Machine
end

