-- ==== Sys2Proof/Machine/Ops.lean ====
section
/-! DEFINITION. The named operations: the buffer's reads and writes (R66), the engine's register updates, raising a
command error (R212), completing a command, and hardware reset (R240). -/

namespace Sys2Proof.Machine

/-- BUF[j], or none where the byte is unspecified (R36, R51). -/
def Memory.load : Memory → Nat → Option Byte
  | [], _ => Memory.unlisted
  | c :: m, j => if c.1 = j then some c.2 else Memory.load m j

/-- `BUF[j] <- b`, keeping the canonical form (R66). -/
def Memory.store : Memory → Nat → Byte → Memory
  | [], j, b => [(j, b)]
  | c :: m, j, b =>
    if j < c.1 then (j, b) :: c :: m
    else if j = c.1 then (j, b) :: m
    else c :: Memory.store m j b

/-- `BUF[j+k] <- s[k]` for each k < len(s) (R66). -/
def Memory.storeBytes : Memory → Nat → List Byte → Memory
  | m, _, [] => m
  | m, j, b :: s => Memory.storeBytes (m.store j b) (j + 1) s

/-- Bytes at `n` and beyond become unspecified (R36). -/
def Memory.keepBelow (m : Memory) (n : Nat) : Memory := m.filter (fun c => c.1 < n)

/-- [BUF[j], …, BUF[j+n−1]], or the fault of the first unspecified one (U1). -/
def Memory.loadBytes (m : Memory) (j : Nat) : Nat → Except Fault (List Byte)
  | 0 => .ok []
  | n + 1 =>
    match m.load j with
    | none => .error (.unspecifiedByte j)
    | some b =>
      match Memory.loadBytes m (j + 1) n with
      | .ok s => .ok (b :: s)
      | .error f => .error f

/-- MemRead(j, n): needs j + n ≤ 64 (R21, R66). -/
def memRead (m : Memory) (j n : Nat) : Except Fault (List Byte) :=
  if j + n ≤ 64 then m.loadBytes j n else .error (.bufferRange j n)

/-- MemWrite(j, n, s) with n = len(s): needs j + n ≤ 64 (R21, R66). -/
def memWrite (m : Memory) (j : Nat) (s : List Byte) : Except Fault Memory :=
  if j + s.length ≤ 64 then .ok (m.storeBytes j s) else .error (.bufferRange j s.length)

/-- `BUFCNT <- n`: bytes at n and beyond become unspecified (R36, R37; log entry 5). -/
def Engine.setOccupancy (e : Engine) (n : Nat) : Engine :=
  { e with buf := e.buf.keepBelow n, bufcnt := BitVec.ofNat 6 n }

/-- `H <- Compress(H, blk); LEN <- trunc_64(LEN + 64)`, as ABSORB does for each full block (R119, R158). -/
def Engine.compressBlock (e : Engine) (blk : List Byte) : Engine :=
  { e with h := compress e.h blk, len := e.len + 64 }

/-- TOTAL = LEN + zext_64(BUFCNT): the message bytes absorbed since the last INIT or reset (R49). -/
def Engine.total (e : Engine) : BitVec 64 := e.len + e.bufcnt.setWidth 64

/-- The code of a command error (R42). -/
def CmdErrorCode.value : CmdErrorCode → BitVec 4
  | .illegalOpcode => 1
  | .nonzeroArg => 2
  | .useAfterFinalize => 3

/-- What a command error does to the engine: ERR and ERRCODE if it is the first since reset, nothing else (R212). -/
def Engine.recordError (e : Engine) (code : CmdErrorCode) : Engine :=
  if e.err then e else { e with err := true, errcode := code.value }

/-- The command in progress completes, leaving the engine state `e`. -/
def State.complete (s : State) (e : Engine) : State := { s with engine := e, inflight := none }

/-- `raise CmdError(code)`: the one way an exception is taken. The command completes with no other effect (R212); the
run keeps the error (R218). There is no return from it (R222). -/
def State.raise (s : State) (code : CmdErrorCode) : State :=
  { s.complete (s.engine.recordError code) with faulted := true }

/-- The command in progress waits for its host (R247, R249). -/
def State.wait (s : State) (f : InFlight) : State := { s with inflight := some f }

/-- The host accepts a response (R87, R128). -/
def State.respond (s : State) (d : List Byte) : State := { s with responses := s.responses ++ [rspWord d] }

/-- Hardware reset (R240): the engine takes its reset values, a command in progress is abandoned and its response
withdrawn (R241), a micro-op in progress too (log entry 14). What the host offers stays offered (R241, R248); the run's
record of errors stays (R218; log entry 9). -/
def State.hardwareReset (s : State) : State :=
  { s with engine := Engine.reset, inflight := none, alu := { s.alu with uop := none } }

/-- The ALU's result leaves on Y (R98). -/
def State.setY (s : State) (y : Word) : State := { s with alu := { s.alu with y := y } }

end Sys2Proof.Machine
end

