-- ==== Sys2Proof/Machine/Operands.lean ====
section
/-! DEFINITION. Operands: an ABSORB's length and payload (R92, R102 of 30_encoding.md), the ALU's words and amounts
(R103). There is no other operand form. -/

namespace Sys2Proof.Machine

/-- n = zext_64(ARG), the payload length in bytes (R92, R102). -/
def payloadLength (arg : BitVec 28) : Nat := (arg.setWidth 64).toNat

/-- The payload bytes an ABSORB has accepted once it has taken what it still needs from the data channel (R86, R92). -/
def payloadTaken (arg : BitVec 28) (got : List Byte) (s : State) : List Byte :=
  got ++ s.din.take (payloadLength arg - got.length)

/-- The state with those bytes accepted; what is offered beyond them stays offered (R86, R248). -/
def acceptPayload (arg : BitVec 28) (got : List Byte) (s : State) : State :=
  { s with din := s.din.drop (payloadLength arg - got.length) }

/-- The ALU's operand words A, B, C (R98, R103). -/
def opA (s : State) : Word := s.alu.a
def opB (s : State) : Word := s.alu.b
def opC (s : State) : Word := s.alu.c

end Sys2Proof.Machine
end

