-- ==== Sys2Proof/Machine/AluOps.lean ====
section
/-! DEFINITION. The ALU's micro-ops at its ports (R98, R99, R201): each puts one word on Y and does nothing else. -/

namespace Sys2Proof.Machine

/-- ADD puts A + B on Y (R185). -/
def execAluAdd (s : State) : Host.Outcome State Fault Refusal :=
  .next (s.setY (Alu.add (opA s) (opB s)))

/-- XOR puts A ⊕ B on Y (R187). -/
def execAluXor (s : State) : Host.Outcome State Fault Refusal :=
  .next (s.setY (Alu.xor (opA s) (opB s)))

/-- AND puts A ∧ B on Y (R188). -/
def execAluAnd (s : State) : Host.Outcome State Fault Refusal :=
  .next (s.setY (Alu.and (opA s) (opB s)))

/-- NOT puts ¬A on Y (R189). -/
def execAluNot (s : State) : Host.Outcome State Fault Refusal :=
  .next (s.setY (Alu.not (opA s)))

/-- ROTR puts A rotated right by SHAMT on Y (R191). -/
def execAluRotr (shamt : BitVec 5) (s : State) : Host.Outcome State Fault Refusal :=
  .next (s.setY (Alu.rotr (opA s) shamt))

/-- SHR puts A shifted right by SHAMT on Y (R192). -/
def execAluShr (shamt : BitVec 5) (s : State) : Host.Outcome State Fault Refusal :=
  .next (s.setY (Alu.shr (opA s) shamt))

/-- BSIG0 puts Σ0(A) on Y (R194). -/
def execAluBsig0 (s : State) : Host.Outcome State Fault Refusal :=
  .next (s.setY (Alu.bsig0 (opA s)))

/-- BSIG1 puts Σ1(A) on Y (R195). -/
def execAluBsig1 (s : State) : Host.Outcome State Fault Refusal :=
  .next (s.setY (Alu.bsig1 (opA s)))

/-- SSIG0 puts σ0(A) on Y (R196). -/
def execAluSsig0 (s : State) : Host.Outcome State Fault Refusal :=
  .next (s.setY (Alu.ssig0 (opA s)))

/-- SSIG1 puts σ1(A) on Y (R197). -/
def execAluSsig1 (s : State) : Host.Outcome State Fault Refusal :=
  .next (s.setY (Alu.ssig1 (opA s)))

/-- CH puts CH(A, B, C) on Y (R199). -/
def execAluCh (s : State) : Host.Outcome State Fault Refusal :=
  .next (s.setY (Alu.ch (opA s) (opB s) (opC s)))

/-- MAJ puts MAJ(A, B, C) on Y (R200). -/
def execAluMaj (s : State) : Host.Outcome State Fault Refusal :=
  .next (s.setY (Alu.maj (opA s) (opB s) (opC s)))

/-- FN = 0xC..0xF: reserved, never issued, and refused by a model (R100, U8). -/
def execAluReserved (_s : State) : Host.Outcome State Fault Refusal := .refused .reservedAluFunction

end Sys2Proof.Machine
end

