-- ==== Sys2Proof/Machine/CommandErrors.lean ====
section
/-! DEFINITION. The command words that spell no command: each is accepted and raises its command error, in any phase,
taking no payload byte (R93, R94 of 30_encoding.md, R213 of 60_exceptions.md). -/

namespace Sys2Proof.Machine

/-- An INIT word with ARG ≠ 0 raises NONZERO_ARG (R93, R213). -/
def execIllegalInitArg (s : State) : Host.Outcome State Fault Refusal := .next (s.raise .nonzeroArg)

/-- A FINALIZE word with ARG ≠ 0 raises NONZERO_ARG, also in phase CONSUMED (R93, R213, R216). -/
def execIllegalFinalizeArg (s : State) : Host.Outcome State Fault Refusal := .next (s.raise .nonzeroArg)

/-- OP = 0x0 raises ILLEGAL_OPCODE (R94, R213). -/
def execIllegalOp0 (s : State) : Host.Outcome State Fault Refusal := .next (s.raise .illegalOpcode)

/-- OP = 0x4..0x7 raises ILLEGAL_OPCODE (R94, R213). -/
def execIllegalOp4to7 (s : State) : Host.Outcome State Fault Refusal := .next (s.raise .illegalOpcode)

/-- OP = 0x8..0xF raises ILLEGAL_OPCODE (R94, R213). -/
def execIllegalOp8toF (s : State) : Host.Outcome State Fault Refusal := .next (s.raise .illegalOpcode)

end Sys2Proof.Machine
end

