-- ==== Sys2Proof/Machine/Commands.lean ====
section
/-! DEFINITION. The host commands INIT, ABSORB and FINALIZE (40_commands.md). -/

namespace Sys2Proof.Machine

/-- INIT: H, LEN, BUFCNT and PHASE take their initial values; ERR and ERRCODE are not written; the buffer's bytes become
unspecified, since BUFCNT = 0 (R116, R117). -/
def Engine.init (e : Engine) : Engine :=
  ({ e with h := iv, len := 0, phase := .active } : Engine).setOccupancy 0

/-- The meaning of INIT (R116). -/
def execInit (s : State) : Host.Outcome State Fault Refusal := .next (s.complete s.engine.init)

/-- ABSORB step 2: compress k whole blocks straight from the payload (R121). -/
def Engine.absorbBlocks : Nat → Engine → List Byte → Engine
  | 0, e, _ => e
  | k + 1, e, p => Engine.absorbBlocks k (e.compressBlock (p.take 64)) (p.drop 64)

/-- ABSORB steps 2 and 3, from an empty buffer: all the whole blocks, then keep the tail (R121, R122). -/
def Engine.absorbAligned (e : Engine) (p : List Byte) : Except Fault Engine :=
  let e' := Engine.absorbBlocks (p.length / 64) e p
  let tail := p.drop (64 * (p.length / 64))
  match memWrite e'.buf 0 tail with
  | .error f => .error f
  | .ok m => .ok (({ e' with buf := m } : Engine).setOccupancy tail.length)

/-- ABSORB in phase ACTIVE (R119): step 1 tops up a partial buffer and ends short of 64 bytes, or compresses it and goes
on with the rest (R120). -/
def Engine.absorb (e : Engine) (p : List Byte) : Except Fault Engine :=
  if e.bufcnt = 0 then e.absorbAligned p
  else
    let cnt := e.bufcnt.toNat
    let take := min (64 - cnt) p.length
    match memWrite e.buf cnt (p.take take) with
    | .error f => .error f
    | .ok m =>
      if cnt + take < 64 then .ok (({ e with buf := m } : Engine).setOccupancy (cnt + take))
      else
        match memRead m 0 64 with
        | .error f => .error f
        | .ok blk =>
          ((({ e with buf := m } : Engine).compressBlock blk).setOccupancy 0).absorbAligned (p.drop take)

/-- An ABSORB whose whole payload `p` has been accepted: an error in phase CONSUMED, the payload having been drained
(R214), else the absorb (R119). -/
def absorbPayload (p : List Byte) (s : State) : Host.Outcome State Fault Refusal :=
  if s.engine.phase = .consumed then .next (s.raise .useAfterFinalize)
  else
    match s.engine.absorb p with
    | .ok e => .next (s.complete e)
    | .error f => .fault f

/-- An ABSORB that has accepted `got`: it takes what it still needs of the bytes offered, and completes once it has
all `arg` of them; else it waits (R92, R247). In phase CONSUMED the error is raised at that completion, and an ABSORB
abandoned before it raises none: DESIGN CHOICE (log entry 26). -/
def absorbFrom (arg : BitVec 28) (got : List Byte) (s : State) : Host.Outcome State Fault Refusal :=
  if (payloadTaken arg got s).length < payloadLength arg then
    .next ((acceptPayload arg got s).wait (.absorb arg (payloadTaken arg got s)))
  else absorbPayload (payloadTaken arg got s) (acceptPayload arg got s)

/-- The meaning of ABSORB, from its acceptance (R119). -/
def execAbsorb (arg : BitVec 28) (s : State) : Host.Outcome State Fault Refusal := absorbFrom arg [] s

/-- bitlen = trunc_64((LEN + zext_64(BUFCNT)) × 8) (R126). -/
def Engine.bitLength (e : Engine) : BitVec 64 := e.total * 8

/-- The hash state after the padding of a message whose buffered bytes are `msg`: one block when there are fewer than 56
of them, else two (R124, R125). -/
def padAndCompress (h : HashState) (msg : List Byte) (bitlen : BitVec 64) : HashState :=
  if msg.length < 56 then
    compress h (msg ++ [0x80] ++ zeros (55 - msg.length) ++ be64Bytes bitlen)
  else
    compress (compress h (msg ++ [0x80] ++ zeros (63 - msg.length))) (zeros 56 ++ be64Bytes bitlen)

/-- FINALIZE in phase ACTIVE: the engine it leaves (R123, R129). LEN, BUFCNT and BUF are left unchanged, as R131 allows
(log entry 8). Its digest is the big-endian bytes of the H it leaves (R128). -/
def Engine.finalize (e : Engine) : Except Fault Engine :=
  match memRead e.buf 0 e.bufcnt.toNat with
  | .error f => .error f
  | .ok msg => .ok { e with h := padAndCompress e.h msg e.bitLength, phase := .consumed }

/-- The meaning of FINALIZE: an error in phase CONSUMED (R214); else it presents its response, completes when the host
accepts it, and waits until then, the engine's registers as before (R72, R123, R249). -/
def execFinalize (s : State) : Host.Outcome State Fault Refusal :=
  if s.engine.phase = .consumed then .next (s.raise .useAfterFinalize)
  else
    match s.engine.finalize with
    | .error f => .fault f
    | .ok e =>
      if s.rspReady then .next ((s.respond (digestBytes e.h)).complete e)
      else .next (s.wait .finalize)

/-- A command in flight goes on: it completes if the host has done its duty, else it still waits (R247, R249). -/
def resume (f : InFlight) (s : State) : Host.Outcome State Fault Refusal :=
  match f with
  | .absorb arg got => absorbFrom arg got s
  | .finalize => execFinalize s

end Sys2Proof.Machine
end

