-- ==== Sys2Proof/Machine/Dispatch.lean ====
section
/-! DEFINITION. One arm per instruction (R115 of 40_commands.md for the command words, R99 of 30_encoding.md for the
micro-ops). -/

namespace Sys2Proof.Machine

def exec (i : Instr) (s : State) : Host.Outcome State Fault Refusal :=
  match i with
  | .init => Sys2Proof.Machine.execInit s
  | .absorb arg => Sys2Proof.Machine.execAbsorb arg s
  | .finalize => Sys2Proof.Machine.execFinalize s
  | .illegalInitArg _ => Sys2Proof.Machine.execIllegalInitArg s
  | .illegalFinalizeArg _ => Sys2Proof.Machine.execIllegalFinalizeArg s
  | .illegalOp0 _ => Sys2Proof.Machine.execIllegalOp0 s
  | .illegalOp4to7 _ _ => Sys2Proof.Machine.execIllegalOp4to7 s
  | .illegalOp8toF _ _ => Sys2Proof.Machine.execIllegalOp8toF s
  | .aluAdd => Sys2Proof.Machine.execAluAdd s
  | .aluXor => Sys2Proof.Machine.execAluXor s
  | .aluAnd => Sys2Proof.Machine.execAluAnd s
  | .aluNot => Sys2Proof.Machine.execAluNot s
  | .aluRotr shamt => Sys2Proof.Machine.execAluRotr shamt s
  | .aluShr shamt => Sys2Proof.Machine.execAluShr shamt s
  | .aluBsig0 => Sys2Proof.Machine.execAluBsig0 s
  | .aluBsig1 => Sys2Proof.Machine.execAluBsig1 s
  | .aluSsig0 => Sys2Proof.Machine.execAluSsig0 s
  | .aluSsig1 => Sys2Proof.Machine.execAluSsig1 s
  | .aluCh => Sys2Proof.Machine.execAluCh s
  | .aluMaj => Sys2Proof.Machine.execAluMaj s
  | .aluReserved _ _ => Sys2Proof.Machine.execAluReserved s

end Sys2Proof.Machine
end

