-- ==== Sys2Proof/Machine/Fetch.lean ====
section
/-! DEFINITION. What the machine does next. The engine fetches no instruction (R31, R79): the host offers command words
(R85), and a micro-op stands on the ALU's function select or does not (R98). -/

namespace Sys2Proof.Machine

/-- The next event. -/
inductive Event where
  /-- rst is asserted: it takes priority over everything (R217). -/
  | reset
  /-- A micro-op word is issued to the ALU (log entry 14). -/
  | microOp (w : BitVec 16)
  /-- A command is in flight: no other is accepted (R85, R246). -/
  | resume (f : InFlight)
  /-- The engine is ready and a command word is offered: it is accepted (R85). -/
  | command (w : BitVec 32)
  /-- Nothing is offered: the engine keeps its state (R230; log entry 2). -/
  | idle
  deriving DecidableEq, Repr

/-- The next event of a state, by R217 and R85. -/
def State.nextEvent (s : State) : Event :=
  if s.rst then .reset
  else
    match s.alu.uop with
    | some w => .microOp w
    | none =>
      match s.inflight with
      | some f => .resume f
      | none =>
        match s.cmd with
        | w :: _ => .command w
        | [] => .idle

/-- The offered command word is accepted and consumed (R73, R85). -/
def State.takeCommand (s : State) : State := { s with cmd := s.cmd.tail }

/-- The issued micro-op is taken. -/
def State.takeMicroOp (s : State) : State := { s with alu := { s.alu with uop := none } }

/-- The state in which `w` is the next command the engine accepts. -/
def State.withCommand (s : State) (w : BitVec 32) : State :=
  { s with rst := false, inflight := none, alu := { s.alu with uop := none }, cmd := w :: s.cmd }

/-- The state in which the micro-op `w` is issued to the ALU. -/
def State.withMicroOp (s : State) (w : BitVec 16) : State :=
  { s with rst := false, alu := { s.alu with uop := some w } }

end Sys2Proof.Machine
end

