-- ==== Sys2Proof/Machine/Step.lean ====
section
/-! DEFINITION. One step: the command step of R115 (40_commands.md), with reset, waits and micro-ops around it. -/

namespace Sys2Proof.Machine

/-- One step. A command word always decodes (R95); a micro-op word that spells no table row is refused by name (R100). -/
def step (s : State) : Host.Outcome State Fault Refusal :=
  match s.nextEvent with
  | .reset => .next s.hardwareReset
  | .microOp w =>
    match decodeUop w with
    | .ok i => exec i s.takeMicroOp
    | .error why => .refused (.malformedMicroOp why)
  | .resume f => resume f s
  | .command w => exec (decodeCmd w) s.takeCommand
  | .idle => .next s

/-- `s` with the instruction whose word is `w` placed where the next step takes it: a 16-bit word on the ALU's function
select, any other at the head of the command channel of an engine ready to accept it (log entry 2). -/
def State.withFetchWord (s : State) (nbits w : Nat) : State :=
  if nbits = 16 then s.withMicroOp (BitVec.ofNat 16 w) else s.withCommand (BitVec.ofNat 32 w)

end Sys2Proof.Machine
end

