-- ==== Sys2Proof/Machine/Flags.lean ====
section
/-! DEFINITION. STATUS (R38 to R44 of 10_state.md, R88 of 30_encoding.md, R250 of 70_reset_and_hazards.md). The engine
has no arithmetic flags (R50, R201): PHASE, ERR, ERRCODE and BUSY are all there is. -/

namespace Sys2Proof.Machine

/-- The STATUS word of its fields (R38): bits 31:8 zero, ERRCODE in 7:4, bit 3 zero, BUSY in 2, ERR in 1, CONSUMED in 0. -/
def statusWord (consumed err busy : Bool) (errcode : BitVec 4) : BitVec 32 :=
  0#24 ++ errcode ++ 0#1 ++ BitVec.ofBool busy ++ BitVec.ofBool err ++ BitVec.ofBool consumed

/-- STATUS.CONSUMED is hardwired to PHASE (R39). -/
def Engine.consumed (e : Engine) : Bool := decide (e.phase = .consumed)

/-- STATUS between commands, BUSY = 0 (R38, R41). -/
def Engine.status (e : Engine) : BitVec 32 := statusWord e.consumed e.err false e.errcode

/-- STATUS.BUSY: a command is accepted and not complete (R41). -/
def State.busy (s : State) : Bool := s.inflight.isSome

/-- The engine whose STATUS fields are those the command in flight will leave: an ABSORB in CONSUMED raises
USE_AFTER_FINALIZE (R214) and in ACTIVE changes no field; a FINALIZE sets CONSUMED (R129). -/
def InFlight.statusAfter (f : InFlight) (e : Engine) : Engine :=
  match f with
  | .absorb _ _ => if e.phase = .consumed then e.recordError .useAfterFinalize else e
  | .finalize => { e with phase := .consumed }

/-- What the status port shows (R88). During a command BUSY reads 1 and each of CONSUMED, ERR and ERRCODE reads its
value before the command or after it, by a free value (R250). -/
def State.statusPort (s : State) : BitVec 32 :=
  match s.inflight with
  | none => s.engine.status
  | some f =>
    let after := f.statusAfter s.engine
    let draw := Config.statusDraw s.statusReads
    statusWord
      (if draw .consumed then after.consumed else s.engine.consumed)
      (if draw .err then after.err else s.engine.err)
      true
      (if draw .errcode then after.errcode else s.engine.errcode)

end Sys2Proof.Machine
end

