-- ==== Sys2Proof/Machine/HostMoves.lean ====
section
/-! DEFINITION. The engine's output ports and the host's moves (R85 to R89, R109 of 30_encoding.md). A move may come
between any two steps; the host has no other (R109). -/

namespace Sys2Proof.Machine

/-- cmd_ready: no command is executing and reset is not asserted (R85). -/
def State.cmdReady (s : State) : Bool := !s.busy && !s.rst

/-- din_ready: an ABSORB is executing whose payload still has bytes outstanding (R86); 0 under reset (R240). -/
def State.dinReady (s : State) : Bool :=
  match s.inflight with
  | some (.absorb arg got) => !s.rst && decide (got.length < payloadLength arg)
  | some .finalize => false
  | none => false

/-- rsp_valid: a FINALIZE presents its response (R87, R249); 0 under reset (R240, R241). -/
def State.rspValid (s : State) : Bool := !s.rst && decide (s.inflight = some .finalize)

/-- rsp[255:0] while rsp_valid is 1: the digest of the FINALIZE in flight (R87). -/
def State.rspData (s : State) : Option (BitVec 256) :=
  if s.rspValid then
    match s.engine.finalize with
    | .ok e => some (rspWord (digestBytes e.h))
    | .error _ => none
  else none

/-- The host offers a command word (R85, R109: any word, any time). -/
def State.offerCommand (s : State) (w : BitVec 32) : State := { s with cmd := s.cmd ++ [w] }

/-- The host offers payload bytes (R86, R109: gaps between bytes are allowed). -/
def State.offerData (s : State) (bs : List Byte) : State := { s with din := s.din ++ bs }

/-- The host drives rsp_ready (R87, R109). -/
def State.setRspReady (s : State) (b : Bool) : State := { s with rspReady := b }

/-- The host asserts rst: the reset state is there at once, also in the middle of a command (R240, R241). -/
def State.assertReset (s : State) : State := { s.hardwareReset with rst := true }

/-- The host releases rst: the engine accepts commands again (R240). -/
def State.releaseReset (s : State) : State := { s with rst := false }

/-- The host reads STATUS (R44, R88): the value, and the state with only the model's count of reads advanced, so that
another read during the same command draws its own values (R250; log entry 10). -/
def State.readStatus (s : State) : BitVec 32 × State := (s.statusPort, { s with statusReads := s.statusReads + 1 })

end Sys2Proof.Machine
end

