-- ==== Sys2Proof/Machine/Script.lean ====
section
/-! DEFINITION. The host's side of the command stream: script syntax, assembly, the pseudo-commands long ABSORB and
DIGEST, and disassembly (R104 to R108 of 30_encoding.md). -/

namespace Sys2Proof.Machine

/-- One command as the host sends it: its word and the payload bytes that follow on the data channel (R96, R105). -/
structure Request where
  word : BitVec 32
  payload : List Byte
  deriving DecidableEq, Repr

/-- A line of a command script (R104), DIGEST among them (R108). -/
inductive ScriptLine where
  | init
  | absorb (s : List Byte)
  | finalize
  | digest (s : List Byte)
  deriving DecidableEq, Repr

/-- INIT assembles to this word (R105). -/
def initWord : BitVec 32 := 0x10000000

/-- FINALIZE assembles to this word (R105). -/
def finalizeWord : BitVec 32 := 0x30000000

/-- `ABSORB s` with len(s) = n ≤ 2^28 − 1 assembles to `0x20000000 ∨ n` (R105). -/
def absorbWord (n : Nat) : BitVec 32 := 0x20000000 ||| BitVec.ofNat 32 n

/-- M = 2^28 − 1, the largest payload of one command (R13, R92, R106). -/
def maxPayload : Nat := 268435455

/-- `k` pieces of M bytes and what is left (R106). -/
def splitPayload : Nat → List Byte → List (List Byte)
  | 0, s => [s]
  | k + 1, s => s.take maxPayload :: splitPayload k (s.drop maxPayload)

/-- The pieces of one absorb: itself up to M bytes; beyond, pieces of M bytes and a last one that is not empty (R105,
R106; log entry 20). -/
def absorbPieces (s : List Byte) : List (List Byte) := splitPayload ((s.length - 1) / maxPayload) s

/-- `ABSORB s`, expanded where it is long (R105, R106). -/
def absorbRequests (s : List Byte) : List Request :=
  (absorbPieces s).map fun p => { word := absorbWord p.length, payload := p }

/-- The commands of a script line (R105, R106, R108). -/
def ScriptLine.requests : ScriptLine → List Request
  | .init => [{ word := initWord, payload := [] }]
  | .absorb s => absorbRequests s
  | .finalize => [{ word := finalizeWord, payload := [] }]
  | .digest s =>
    { word := initWord, payload := [] } :: (absorbRequests s ++ [{ word := finalizeWord, payload := [] }])

/-- The host offers a command and its payload (R105). -/
def State.offer (s : State) (r : Request) : State := (s.offerCommand r.word).offerData r.payload

/-- The host offers all the commands of a script. -/
def State.offerScript (s : State) (lines : List ScriptLine) : State :=
  (lines.flatMap ScriptLine.requests).foldl State.offer s

/-- A space or a tab: which characters are blanks is a DESIGN CHOICE (log entry 27). -/
def isBlank (c : Char) : Bool := c = ' ' || c = '\t'

/-- The double quote of a quoted string. -/
def quoteChar : Char := Char.ofNat 34

/-- The line before its comment; a `;` inside a quoted string starts none (R104; log entry 20). -/
def beforeComment : Bool → List Char → List Char
  | _, [] => []
  | quoted, c :: cs =>
    if c = ';' && !quoted then []
    else c :: beforeComment (if c = quoteChar then !quoted else quoted) cs

/-- A hex digit's value. Digits of either case are read: DESIGN CHOICE (log entry 20). -/
def hexDigit? (c : Char) : Option Nat :=
  if '0' ≤ c ∧ c ≤ '9' then some (c.toNat - 48)
  else if 'a' ≤ c ∧ c ≤ 'f' then some (c.toNat - 87)
  else if 'A' ≤ c ∧ c ≤ 'F' then some (c.toNat - 55)
  else none

/-- The bytes of hex digits, two a byte (R104). -/
def hexBytes? : List Char → Option (List Byte)
  | [] => some []
  | [_] => none
  | hi :: lo :: cs =>
    match hexDigit? hi, hexDigit? lo, hexBytes? cs with
    | some h, some l, some bs => some (BitVec.ofNat 8 (16 * h + l) :: bs)
    | _, _, _ => none

/-- A decimal number, leading zeros allowed: that a count is decimal is a DESIGN CHOICE (log entry 27). -/
def decimal? : Nat → List Char → Option Nat
  | n, [] => some n
  | n, c :: cs => if '0' ≤ c ∧ c ≤ '9' then decimal? (10 * n + (c.toNat - 48)) cs else none

/-- The characters up to the closing quote, and those after it. No character escapes a quote: DESIGN CHOICE (log entry
27). -/
def quotedPart? : List Char → Option (List Char × List Char)
  | [] => none
  | c :: cs =>
    if c = quoteChar then some ([], cs)
    else (quotedPart? cs).map fun r => (c :: r.1, r.2)

/-- One term of a payload: a quoted ASCII string, a hex string, or a repetition `<n> * 0x<hh>`; and the rest (R104). A
character outside ASCII makes the line no command, and the prefixes `x` and `0x` are lower case: DESIGN CHOICE (log
entry 20). `<n>` is decimal, and blanks may stand on either side of `*` and nowhere else in a term but a quoted string:
DESIGN CHOICE (log entry 27). -/
def payloadTerm? (cs : List Char) : Option (List Byte × List Char) :=
  match cs with
  | [] => none
  | c :: rest =>
    if c = quoteChar then
      match quotedPart? rest with
      | some r =>
        if r.1.all (fun ch => ch.toNat < 128) then some (r.1.map fun ch => BitVec.ofNat 8 ch.toNat, r.2) else none
      | none => none
    else if c = 'x' && rest.head? = some quoteChar then
      match quotedPart? rest.tail with
      | some r => (hexBytes? r.1).map fun bs => (bs, r.2)
      | none => none
    else
      let digits := cs.takeWhile Char.isDigit
      match (cs.dropWhile Char.isDigit).dropWhile isBlank with
      | '*' :: after =>
        match after.dropWhile isBlank with
        | '0' :: x :: hi :: lo :: more =>
          match decide (x = 'x') && !digits.isEmpty, decimal? 0 digits, hexBytes? [hi, lo] with
          | true, some n, some [b] => some (List.replicate n b, more)
          | _, _, _ => none
        | _ => none
      | _ => none

/-- A payload: terms joined by `++` (R104), with or without blanks around them: DESIGN CHOICE (log entry 27). `fuel`
bounds the number of terms. -/
def payload? : Nat → List Char → Option (List Byte)
  | 0, _ => none
  | fuel + 1, cs =>
    match payloadTerm? (cs.dropWhile isBlank) with
    | none => none
    | some (bs, rest) =>
      match rest.dropWhile isBlank with
      | [] => some bs
      | '+' :: '+' :: more => (payload? fuel more).map fun bs' => bs ++ bs'
      | _ => none

/-- A script line read from its text, the mnemonic in any case (R104, R108). The mnemonic is the first run of letters;
blanks may stand before and after it, and a line without one is no command: DESIGN CHOICE (log entry 27). -/
def parseLine? (line : String) : Option ScriptLine :=
  let cs := (beforeComment false line.toList).dropWhile isBlank
  let name := (cs.takeWhile Char.isAlpha).map Char.toUpper
  let rest := (cs.dropWhile Char.isAlpha).dropWhile isBlank
  if name = "INIT".toList ∧ rest = [] then some .init
  else if name = "FINALIZE".toList ∧ rest = [] then some .finalize
  else if name = "ABSORB".toList then (payload? (rest.length + 1) rest).map .absorb
  else if name = "DIGEST".toList then (payload? (rest.length + 1) rest).map .digest
  else none

/-- A hex digit as the disassembler prints it. R107 leaves the letter case open; lower case is a DESIGN CHOICE (log
entry 20). -/
def hexChar (n : Nat) : Char := if n < 10 then Char.ofNat (48 + n) else Char.ofNat (87 + n)

/-- `0x` and 8 hex digits (R107). -/
def hexWord (w : BitVec 32) : String :=
  "0x" ++ String.ofList ([28, 24, 20, 16, 12, 8, 4, 0].map fun k => hexChar (w.extractLsb' k 4).toNat)

/-- The disassembly of a command word (R107). -/
def disassemble (w : BitVec 32) : String :=
  match decodeCmd w with
  | .init => "INIT"
  | .absorb arg => "ABSORB " ++ toString (payloadLength arg)
  | .finalize => "FINALIZE"
  | _ => ".illegal " ++ hexWord w

end Sys2Proof.Machine
end

