-- ==== Sys2Proof/Machine/Variants.lean ====
section
/-! DEFINITION. The equivalent structures of a compression that R157 (41_compression.md) and R173 (42_schedule_rom.md)
allow: a 16-word schedule window, and eight locations whose roles rotate. The machine uses neither. -/

namespace Sys2Proof.Machine

/-- A 16-word window, oldest word first, moved on by one word (R173). -/
def slideWindow (win : List Word) : List Word :=
  win.tail ++
    [Alu.add
      (Alu.add (Alu.add (Alu.ssig1 (wordAt win 14)) (wordAt win 9)) (Alu.ssig0 (wordAt win 1)))
      (wordAt win 0)]

/-- n rounds from round t on, each taking the window's oldest word as W[t] (R173). -/
def roundsWindowed : Nat → Nat → List Word → Vars → Vars
  | 0, _, _, v => v
  | n + 1, t, win, v => roundsWindowed n (t + 1) (slideWindow win) (round t v (wordAt win 0))

/-- Compress with a 16-word window (R157, R173). -/
def compressWindowed (h : HashState) (blk : List Byte) : HashState :=
  updateState h (roundsWindowed 64 0 (blockWords blk) (seed h))

/-- The location, of eight, that holds role j (0 for a, …, 7 for h) before round t: every location moves one role along
each round (R155). -/
def roleLocation (t j : Nat) : Nat := (j + 7 * t) % 8

/-- The working variables held in eight locations before round t (R155). -/
def readRoles (t : Nat) (loc : List Word) : Vars :=
  { a := wordAt loc (roleLocation t 0), b := wordAt loc (roleLocation t 1), c := wordAt loc (roleLocation t 2),
    d := wordAt loc (roleLocation t 3), e := wordAt loc (roleLocation t 4), f := wordAt loc (roleLocation t 5),
    g := wordAt loc (roleLocation t 6), h := wordAt loc (roleLocation t 7) }

/-- Round t in place: the location of h takes the new a and the location of d the new e; the other six keep their
values and change roles (R155). -/
def roundInPlace (t : Nat) (loc : List Word) (wt : Word) : List Word :=
  let v := readRoles t loc
  (loc.set (roleLocation t 3) (Alu.add v.d (roundT1 t v wt))).set (roleLocation t 7)
    (Alu.add (roundT1 t v wt) (roundT2 v))

/-- n rounds in place. -/
def roundsInPlace : Nat → List Word → List Word → List Word
  | 0, _, loc => loc
  | n + 1, W, loc => roundInPlace n (roundsInPlace n W loc) (wordAt W n)

/-- Compress with the eight values in eight fixed locations (R155, R157). -/
def compressInPlace (h : HashState) (blk : List Byte) : HashState :=
  updateState h (readRoles 64 (roundsInPlace 64 (schedule blk) h.words))

end Sys2Proof.Machine
end

