-- ==== Sys2Proof/Safety.lean ====
section
/-! DEFINITION. What claims are stated in terms of: the invariant of the machine, safe and final states, the message a
state has buffered, and the SHA-256 function of a whole message. -/

namespace Sys2Proof.Machine

/-- The engine's invariant: BUF is in canonical form and exactly its bytes 0..BUFCNT−1 have values (R36, R132); LEN is a
multiple of 64 (R34, R132); ERRCODE is 0 exactly when ERR is, and is 0..3 (R42, U10). -/
abbrev Engine.Inv (e : Engine) : Prop :=
  e.buf.wf = true ∧ e.buf.map Prod.fst = List.range e.bufcnt.toNat ∧ e.len.toNat % 64 = 0 ∧
    (e.err = false ↔ e.errcode = 0) ∧ e.errcode.toNat ≤ 3

/-- What is in flight is a command that really waits: an ABSORB short of payload (R247), or a FINALIZE that runs, in
phase ACTIVE (R249, R214). -/
def InFlight.waits (f : InFlight) (e : Engine) : Bool :=
  match f with
  | .absorb arg got => decide (got.length < payloadLength arg)
  | .finalize => decide (e.phase = .active)

/-- The machine's invariant: the engine's, the command's in flight, and an error recorded in STATUS is recorded for the
run (R218). -/
abbrev State.Inv (s : State) : Prop :=
  s.engine.Inv ∧ s.inflight.all (fun f => f.waits s.engine) = true ∧ (s.engine.err = true → s.faulted = true)

/-- The engine can accept a command: reset released, no micro-op issued, no command in flight (R85). -/
abbrev State.Ready (s : State) : Prop := s.rst = false ∧ s.alu.uop = none ∧ s.inflight = none

/-- A safe run so far: it raised no command error (R218). A claim about digests takes this as a premise. -/
abbrev State.Safe (s : State) : Prop := s.faulted = false

/-- A final state: every offered command has completed (R247: a run that waits is not final). -/
abbrev State.Final (s : State) : Prop := s.Ready ∧ s.cmd = []

/-- `i` puts `f A B C` on the ALU's output Y in every state, and changes nothing else (R98, R201). -/
def PutsOnY (i : Instr) (f : Word → Word → Word → Word) : Prop :=
  ∀ s : State, exec i s = .next { s with alu := { s.alu with y := f s.alu.a s.alu.b s.alu.c } }

/-- BUF[0..BUFCNT): the last bytes absorbed, in message order (R36). -/
def Engine.buffered (e : Engine) : List Byte := e.buf.map Prod.snd

/-- Compress the first k blocks of `m`, in order. -/
def compressBlocks : Nat → HashState → List Byte → HashState
  | 0, h, _ => h
  | k + 1, h, m => compressBlocks k (compress h (m.take 64)) (m.drop 64)

/-- SHA-256's padding of a whole message: 0x80, the fewest zeros that leave 8 bytes of a block, and the bit length
(FIPS 180-4 §5.1.1, from general knowledge; log entry 22). -/
def sha256Padded (m : List Byte) : List Byte :=
  m ++ [0x80] ++ zeros ((119 - m.length % 64) % 64) ++ be64Bytes (BitVec.ofNat 64 (8 * m.length))

/-- SHA-256 of a whole message (FIPS 180-4 §6.2, from general knowledge; log entry 22): the padded message, block by
block from the IV. It knows nothing of buffers, counters or commands; it shares `compress` with the engine. -/
def sha256 (m : List Byte) : List Byte :=
  digestBytes (compressBlocks ((sha256Padded m).length / 64) iv (sha256Padded m))

end Sys2Proof.Machine
end

