-- ==== Sys2Proof/Certificates/Slice0/Obligations.lean ====
section
/-! DEFINITION. The statements for the provers, from the numbered rules of spec/. -/

open Sys2Proof Sys2Proof.Machine

/-! ## Encoding -/

/-- No bit of an encoding is dropped: decoding the word of a well-formed instruction gives it back, with every operand
at every value (R90 to R100). -/
def Obligations.DecodingAnEncodedInstructionGivesItBack : Prop :=
  ∀ i : Instr, i.wellFormed = true → decode (encode i) = .ok i

/-- Each word has one meaning: a word that decodes is the encoding of what it decodes to, which is well-formed. -/
def Obligations.EncodingADecodedWordGivesItBack : Prop :=
  ∀ (c : Code) (i : Instr), decode c = .ok i → encode i = c ∧ i.wellFormed = true

/-- R95: the decoding function, by OP = w / 2^28 and ARG = w mod 2^28. -/
def Obligations.CommandWordsDecodeByOpAndArg : Prop :=
  ∀ w : BitVec 32,
    let op := w.toNat / 2 ^ 28
    let arg := w.toNat % 2 ^ 28
    (op = 1 → arg = 0 → decodeCmd w = .init) ∧
    (op = 1 → arg ≠ 0 → decodeCmd w = .illegalInitArg (BitVec.ofNat 28 arg)) ∧
    (op = 2 → decodeCmd w = .absorb (BitVec.ofNat 28 arg)) ∧
    (op = 3 → arg = 0 → decodeCmd w = .finalize) ∧
    (op = 3 → arg ≠ 0 → decodeCmd w = .illegalFinalizeArg (BitVec.ofNat 28 arg)) ∧
    (op = 0 → decodeCmd w = .illegalOp0 (BitVec.ofNat 28 arg)) ∧
    (4 ≤ op → op < 8 → decodeCmd w = .illegalOp4to7 (BitVec.ofNat 2 (op - 4)) (BitVec.ofNat 28 arg)) ∧
    (8 ≤ op → decodeCmd w = .illegalOp8toF (BitVec.ofNat 3 (op - 8)) (BitVec.ofNat 28 arg))

/-- The words that R97 and V50 print, and one micro-op word of each shape from R99, decode as they say. -/
def Obligations.ExampleWordsOfTheSpecDecode : Prop :=
  decode (.cmd 0x10000000) = .ok .init ∧
  decode (.cmd 0x20000000) = .ok (.absorb 0) ∧
  decode (.cmd 0x20000003) = .ok (.absorb 3) ∧
  decode (.cmd 0x20000040) = .ok (.absorb 64) ∧
  decode (.cmd 0x2FFFFFFF) = .ok (.absorb 268435455) ∧
  decode (.cmd 0x30000000) = .ok .finalize ∧
  decode (.cmd 0x10000001) = .ok (.illegalInitArg 1) ∧
  decode (.cmd 0x00000000) = .ok (.illegalOp0 0) ∧
  decode (.cmd 0x30000040) = .ok (.illegalFinalizeArg 64) ∧
  decode (.cmd 0x80000003) = .ok (.illegalOp8toF 0 3) ∧
  decode (.uop 0x401f) = .ok (.aluRotr 31) ∧
  decode (.uop 0xb000) = .ok .aluMaj

/-- R100, U8: a micro-op word with FN = 0xC..0xF, or nonzero bits 11:5, or a SHAMT that its function does not take, is
refused by name. The fields are FN = w / 2^12, bits 11:5 = w / 2^5 mod 2^7, SHAMT = w mod 2^5. The first clause is the
meaning of the reserved functions: it stops whatever the other bits and in every state. The names of the refusals (log
entry 15), the order in which a word malformed in two ways is given one of them (log entry 23), and that a micro-op is
issued as `alu.uop` (log entry 14) are the model's choice: R100 gives no names and no order. -/
def Obligations.ReservedMicroOpsAreRefused : Prop :=
  (∀ (low : BitVec 2) (rest : BitVec 12) (s : State), exec (.aluReserved low rest) s = .refused .reservedAluFunction) ∧
  ∀ (s : State) (w : BitVec 16), s.rst = false → s.alu.uop = some w →
    let fn := w.toNat / 2 ^ 12
    let mid := w.toNat / 2 ^ 5 % 2 ^ 7
    let sh := w.toNat % 2 ^ 5
    (12 ≤ fn → step s = .refused .reservedAluFunction) ∧
    (fn < 12 → mid ≠ 0 → step s = .refused (.malformedMicroOp .aluReservedBits)) ∧
    (fn < 12 → mid = 0 → fn ≠ 4 → fn ≠ 5 → sh ≠ 0 → step s = .refused (.malformedMicroOp .aluShamtNotTaken))

/-! ## The ALU. Each statement holds in every state and says that nothing but Y changes. -/

/-- R185. -/
def Obligations.AluAddIsAdditionModulo32Bits : Prop :=
  decode (.uop 0x0000) = .ok .aluAdd ∧
  ∃ f : Word → Word → Word → Word, PutsOnY .aluAdd f ∧
    (∀ a b c, f a b c = (a.setWidth 33 + b.setWidth 33).setWidth 32) ∧
    (∀ a b c, (f a b c).toNat = (a.toNat + b.toNat) % 2 ^ 32 ∧ f a b c = f b a c ∧ f a 0 c = a) ∧
    (∀ a b c d, f (f a b d) c d = f a (f b c d) d) ∧
    (∀ c, f 0xffffffff 0x00000001 c = 0 ∧ f 0x80000000 0x80000000 c = 0 ∧ f 0x6a09e667 0xbb67ae85 c = 0x257194ec)

/-- R187. -/
def Obligations.AluXorIsBitwise : Prop :=
  decode (.uop 0x1000) = .ok .aluXor ∧
  ∃ f : Word → Word → Word → Word, PutsOnY .aluXor f ∧
    (∀ a b c, ∀ i < 32, (f a b c).getLsbD i = (a.getLsbD i ^^ b.getLsbD i)) ∧
    (∀ a c, f a a c = 0 ∧ f a 0 c = a ∧ f a 0xffffffff c = ~~~a) ∧
    (∀ c, f 0x12345678 0xffffffff c = 0xedcba987)

/-- R188. -/
def Obligations.AluAndIsBitwise : Prop :=
  decode (.uop 0x2000) = .ok .aluAnd ∧
  ∃ f : Word → Word → Word → Word, PutsOnY .aluAnd f ∧
    (∀ a b c, ∀ i < 32, (f a b c).getLsbD i = (a.getLsbD i && b.getLsbD i)) ∧
    (∀ a c, f a 0 c = 0 ∧ f a 0xffffffff c = a ∧ f a a c = a) ∧
    (∀ c, f 0x12345678 0x0f0f0f0f c = 0x02040608)

/-- R189. -/
def Obligations.AluNotIsBitwise : Prop :=
  decode (.uop 0x3000) = .ok .aluNot ∧
  ∃ f : Word → Word → Word → Word, PutsOnY .aluNot f ∧
    (∀ a b c, ∀ i < 32, (f a b c).getLsbD i = !a.getLsbD i) ∧
    (∀ a b c, f 0 b c = 0xffffffff ∧ f (f a b c) b c = a) ∧
    (∀ b c, f 0x12345678 b c = 0xedcba987)

/-- R191: bit i of the result is bit (i + s) mod 32 of A, for every amount 0..31. -/
def Obligations.AluRotrRotatesRight : Prop :=
  (∀ sh : BitVec 5, decode (.uop (0x4000 ||| sh.setWidth 16)) = .ok (.aluRotr sh)) ∧
  ∃ f : BitVec 5 → Word → Word → Word → Word, (∀ sh, PutsOnY (.aluRotr sh) (f sh)) ∧
    (∀ sh a b c, ∀ i < 32, (f sh a b c).getLsbD i = a.getLsbD ((i + sh.toNat) % 32)) ∧
    (∀ sh a b c, 1 ≤ sh.toNat → f sh a b c = (a >>> sh.toNat ||| a <<< (32 - sh.toNat))) ∧
    (∀ a b c, f 0 a b c = a ∧ f 31 a b c = (a <<< 1 ||| a >>> 31)) ∧
    (∀ sh b c, f sh 0 b c = 0 ∧ f sh 0xffffffff b c = 0xffffffff) ∧
    (∀ b c, f 4 0x12345678 b c = 0x81234567 ∧ f 31 0x12345678 b c = 0x2468acf0 ∧ f 1 0x00000001 b c = 0x80000000)

/-- R192: bit i of the result is bit i + s of A where there is one, else 0, for every amount 0..31. -/
def Obligations.AluShrShiftsRightWithZeros : Prop :=
  (∀ sh : BitVec 5, decode (.uop (0x5000 ||| sh.setWidth 16)) = .ok (.aluShr sh)) ∧
  ∃ f : BitVec 5 → Word → Word → Word → Word, (∀ sh, PutsOnY (.aluShr sh) (f sh)) ∧
    (∀ sh a b c, ∀ i < 32, (f sh a b c).getLsbD i = if i + sh.toNat ≤ 31 then a.getLsbD (i + sh.toNat) else false) ∧
    (∀ a b c, f 0 a b c = a ∧ f 31 0x80000000 b c = 0x00000001) ∧
    (∀ b c, f 4 0x12345678 b c = 0x01234567 ∧ f 10 0xffffffff b c = 0x003fffff)

/-- R194. The joining exclusive-or is G4, from general knowledge (log entry 16). -/
def Obligations.AluBsig0MixesThreeRotations : Prop :=
  decode (.uop 0x6000) = .ok .aluBsig0 ∧
  ∃ f : Word → Word → Word → Word, PutsOnY .aluBsig0 f ∧
    (∀ a b c, ∀ i < 32, (f a b c).getLsbD i =
      (a.getLsbD ((i + 2) % 32) ^^ a.getLsbD ((i + 13) % 32) ^^ a.getLsbD ((i + 22) % 32))) ∧
    (∀ b c, f 0 b c = 0 ∧ f 0xffffffff b c = 0xffffffff ∧ f 0x80000000 b c = 0x20040200 ∧
      f 0x6a09e667 b c = 0xce20b47e)

/-- R195. The joining exclusive-or is G4, from general knowledge (log entry 16). -/
def Obligations.AluBsig1MixesThreeRotations : Prop :=
  decode (.uop 0x7000) = .ok .aluBsig1 ∧
  ∃ f : Word → Word → Word → Word, PutsOnY .aluBsig1 f ∧
    (∀ a b c, ∀ i < 32, (f a b c).getLsbD i =
      (a.getLsbD ((i + 6) % 32) ^^ a.getLsbD ((i + 11) % 32) ^^ a.getLsbD ((i + 25) % 32))) ∧
    (∀ b c, f 0 b c = 0 ∧ f 0xffffffff b c = 0xffffffff ∧ f 0x80000000 b c = 0x02100040 ∧
      f 0x510e527f b c = 0x3587272b)

/-- R196. -/
def Obligations.AluSsig0MixesTwoRotationsAndAShift : Prop :=
  decode (.uop 0x8000) = .ok .aluSsig0 ∧
  ∃ f : Word → Word → Word → Word, PutsOnY .aluSsig0 f ∧
    (∀ a b c, ∀ i < 32, (f a b c).getLsbD i =
      (a.getLsbD ((i + 7) % 32) ^^ a.getLsbD ((i + 18) % 32) ^^ (decide (i + 3 ≤ 31) && a.getLsbD (i + 3)))) ∧
    (∀ b c, f 0 b c = 0 ∧ f 0xffffffff b c = 0x1fffffff ∧ f 0x80000000 b c = 0x11002000 ∧
      f 0x6a09e667 b c = 0xba0cf582)

/-- R197. -/
def Obligations.AluSsig1MixesTwoRotationsAndAShift : Prop :=
  decode (.uop 0x9000) = .ok .aluSsig1 ∧
  ∃ f : Word → Word → Word → Word, PutsOnY .aluSsig1 f ∧
    (∀ a b c, ∀ i < 32, (f a b c).getLsbD i =
      (a.getLsbD ((i + 17) % 32) ^^ a.getLsbD ((i + 19) % 32) ^^ (decide (i + 10 ≤ 31) && a.getLsbD (i + 10)))) ∧
    (∀ b c, f 0 b c = 0 ∧ f 0xffffffff b c = 0x003fffff ∧ f 0x80000000 b c = 0x00205000 ∧
      f 0x6a09e667 b c = 0xcfe5da3c)

/-- R199. -/
def Obligations.AluChChoosesBitByBit : Prop :=
  decode (.uop 0xa000) = .ok .aluCh ∧
  ∃ f : Word → Word → Word → Word, PutsOnY .aluCh f ∧
    (∀ a b c, f a b c = ((a &&& b) ^^^ (~~~a &&& c))) ∧
    (∀ a b c, ∀ i < 32, (f a b c).getLsbD i = if a.getLsbD i then b.getLsbD i else c.getLsbD i) ∧
    (∀ a b c, f 0xffffffff b c = b ∧ f 0 b c = c ∧ f a b b = b) ∧
    f 0xff00ff00 0x12345678 0x9abcdef0 = 0x12bc56f0 ∧ f 0x510e527f 0x9b05688c 0x1f83d9ab = 0x1f85c98c

/-- R200. -/
def Obligations.AluMajIsBitwiseMajority : Prop :=
  decode (.uop 0xb000) = .ok .aluMaj ∧
  ∃ f : Word → Word → Word → Word, PutsOnY .aluMaj f ∧
    (∀ a b c, f a b c = ((a &&& b) ^^^ (a &&& c) ^^^ (b &&& c))) ∧
    (∀ a b c, ∀ i < 32, (f a b c).getLsbD i =
      decide (2 ≤ (a.getLsbD i).toNat + (b.getLsbD i).toNat + (c.getLsbD i).toNat)) ∧
    (∀ a b c, f a a b = a ∧ f a b c = f b a c ∧ f a b c = f a c b) ∧
    f 0xffffffff 0xffffffff 0 = 0xffffffff ∧ f 0xff00ff00 0x0ff00ff0 0x00ffff00 = 0x0ff0ff00 ∧
    f 0x6a09e667 0xbb67ae85 0x3c6ef372 = 0x3a6fe667

/-- R201, over all micro-ops: what one puts on Y depends on the micro-op and the operands alone, and it writes nothing
but Y: no engine register, no flag, no channel. -/
def Obligations.MicroOpResultDependsOnOperandsAlone : Prop :=
  ∀ (w : BitVec 16) (i : Instr) (s s' t t' : State), decode (.uop w) = .ok i →
    exec i s = .next t → exec i s' = .next t' →
    s.alu.a = s'.alu.a → s.alu.b = s'.alu.b → s.alu.c = s'.alu.c →
    t.alu.y = t'.alu.y ∧ t = { s with alu := { s.alu with y := t.alu.y } }

/-! ## Schedule, ROM and compression -/

/-- R170, R171: the first 16 words are the block's, big-endian; each later one is the sum of R171. -/
def Obligations.ScheduleFollowsLoadAndExpansion : Prop :=
  ∀ blk : List Byte, blk.length = 64 →
    (schedule blk).length = 64 ∧
    (∀ t < 16, wordAt (schedule blk) t =
      be32 (blk.getD (4 * t) 0) (blk.getD (4 * t + 1) 0) (blk.getD (4 * t + 2) 0) (blk.getD (4 * t + 3) 0)) ∧
    (∀ t, 16 ≤ t → t < 64 →
      wordAt (schedule blk) t =
        Alu.ssig1 (wordAt (schedule blk) (t - 2)) + wordAt (schedule blk) (t - 7) +
          Alu.ssig0 (wordAt (schedule blk) (t - 15)) + wordAt (schedule blk) (t - 16))

/-- R179, R178: K[t] is the first 32 bits of the fractional part of the cube root of the (t+1)-th prime. With q the
integer part of the root, K = q·2^32 + K[t] is the floor of the root times 2^32: K³ ≤ p·2^96 < (K+1)³. The spec has
the values from general knowledge (G2, log entry 16). -/
def Obligations.RomHoldsCubeRootFractions : Prop :=
  rom.length = 64 ∧
  ∀ t < 64, let p := ([2, 3, 5, 7, 11, 13, 17, 19, 23, 29, 31, 37, 41, 43, 47, 53, 59, 61, 67, 71, 73, 79, 83, 89, 97,
      101, 103, 107, 109, 113, 127, 131, 137, 139, 149, 151, 157, 163, 167, 173, 179, 181, 191, 193, 197, 199, 211,
      223, 227, 229, 233, 239, 241, 251, 257, 263, 269, 271, 277, 281, 283, 293, 307, 311] : List Nat).getD t 0
    ∃ q < 7, (q * 2 ^ 32 + (romK t).toNat) ^ 3 ≤ p * 2 ^ 96 ∧ p * 2 ^ 96 < (q * 2 ^ 32 + (romK t).toNat + 1) ^ 3

/-- R33: IV[i] is the first 32 bits of the fractional part of the square root of the i-th prime. The spec has the
values from general knowledge (G1, log entry 16). -/
def Obligations.IvHoldsSquareRootFractions : Prop :=
  ∀ i < 8, let p := ([2, 3, 5, 7, 11, 13, 17, 19] : List Nat).getD i 0
    ∃ q < 5, (q * 2 ^ 32 + (iv.words.getD i 0).toNat) ^ 2 ≤ p * 2 ^ 64 ∧
      p * 2 ^ 64 < (q * 2 ^ 32 + (iv.words.getD i 0).toNat + 1) ^ 2

/-- R152: T1 and T2 and the new working variables, the sums modulo 2^32. The spec has the combination from general
knowledge (G3, log entry 16). -/
def Obligations.RoundComputesT1AndT2 : Prop :=
  ∀ (t : Nat) (a b c d e f g h wt : Word),
    let t1 := h + Alu.bsig1 e + Alu.ch e f g + romK t + wt
    let t2 := Alu.bsig0 a + Alu.maj a b c
    round t { a := a, b := b, c := c, d := d, e := e, f := f, g := g, h := h } wt =
      { a := t1 + t2, b := a, c := b, d := c, e := d + t1, f := e, g := f, h := g }

/-- R150, R151, R153, R156: Compress seeds a..h from H, runs rounds 0 to 63 in order, round t on W[t], and
adds. The spec has the pairing of a..h with H from general knowledge (G5, log entry 16). -/
def Obligations.CompressRunsSixtyFourRoundsAndAdds : Prop :=
  ∀ (H : HashState) (blk : List Byte),
    let v := (List.range 64).foldl (fun v t => round t v (wordAt (schedule blk) t))
      { a := H.h0, b := H.h1, c := H.h2, d := H.h3, e := H.h4, f := H.h5, g := H.h6, h := H.h7 }
    compress H blk =
      { h0 := H.h0 + v.a, h1 := H.h1 + v.b, h2 := H.h2 + v.c, h3 := H.h3 + v.d,
        h4 := H.h4 + v.e, h5 := H.h5 + v.f, h6 := H.h6 + v.g, h7 := H.h7 + v.h }

/-- R173, R157: an expander with a 16-word window gives the same compression. -/
def Obligations.WindowedCompressionRefinesCompress : Prop :=
  ∀ (H : HashState) (blk : List Byte), blk.length = 64 → compressWindowed H blk = compress H blk

/-- R155, R157: eight fixed locations whose roles rotate hold, before each round, the working variables of that round,
and give the same compression. -/
def Obligations.InPlaceCompressionRefinesCompress : Prop :=
  (∀ (n : Nat) (W : List Word) (H : HashState), readRoles n (roundsInPlace n W H.words) = rounds n W (seed H)) ∧
  ∀ (H : HashState) (blk : List Byte), compressInPlace H blk = compress H blk

/-! ## INIT -/

/-- R116: INIT writes H, LEN, BUFCNT and PHASE in every state, leaves ERR and ERRCODE, and no byte of BUF has a
specified value after it (the model's reading of "its bytes become unspecified", log entry 5); with ARG ≠ 0 none of
that happens. R117, R244: INIT right after a reset changes nothing. -/
def Obligations.InitPutsTheEngineInTheInitialState : Prop :=
  decode (.cmd 0x10000000) = .ok .init ∧
  (∀ s : State, ∃ t : State, exec .init s = .next t ∧
    t.engine.h.words = [0x6a09e667, 0xbb67ae85, 0x3c6ef372, 0xa54ff53a, 0x510e527f, 0x9b05688c, 0x1f83d9ab,
      0x5be0cd19] ∧
    t.engine.len = 0 ∧ t.engine.bufcnt = 0 ∧ t.engine.phase = .active ∧ (∀ j, t.engine.buf.load j = none) ∧
    t.engine.err = s.engine.err ∧ t.engine.errcode = s.engine.errcode ∧
    t = { s with engine := t.engine, inflight := none }) ∧
  (∀ (s : State) (arg : BitVec 28), arg ≠ 0 →
    decode (.cmd (0x1#4 ++ arg)) = .ok (.illegalInitArg arg) ∧
    ∃ t : State, exec (.illegalInitArg arg) s = .next t ∧ t.engine.h = s.engine.h ∧ t.engine.len = s.engine.len ∧
      t.engine.bufcnt = s.engine.bufcnt ∧ t.engine.phase = s.engine.phase ∧ t.engine.buf = s.engine.buf ∧
      t.engine.err = true ∧ (s.engine.err = false → t.engine.errcode = 2)) ∧
  exec .init State.reset = .next State.reset ∧ ∀ s : State, exec .init s.hardwareReset = .next s.hardwareReset

/-! ## ABSORB -/

/-- R119 to R122, R133, R254, R132: in phase ACTIVE, with its n payload bytes offered, ABSORB completes. With `m` the
buffered bytes and the payload together and k = ⌊(B + n)/64⌋, the k whole blocks of `m` are compressed in order, LEN
grows by 64·k, the tail of `m` is buffered and BUFCNT counts it. Everything else is as before: PHASE, ERR, ERRCODE, the
other channels, and the bytes offered beyond the payload. That no byte of BUF beyond BUFCNT has a value, and that bytes
offered beyond the payload wait, are the model's reading (log entries 5 and 18). -/
def Obligations.AbsorbCompressesWholeBlocksAndKeepsTheTail : Prop :=
  ∀ (s : State) (n : BitVec 28), s.engine.Inv → s.engine.phase = .active → n.toNat ≤ s.din.length →
    let m := s.engine.buffered ++ s.din.take n.toNat
    let k := (s.engine.bufcnt.toNat + n.toNat) / 64
    ∃ e : Engine,
      exec (.absorb n) s = .next { s with engine := e, inflight := none, din := s.din.drop n.toNat } ∧
      e.Inv ∧ e.h = compressBlocks k s.engine.h m ∧ e.len = s.engine.len + BitVec.ofNat 64 (64 * k) ∧
      e.bufcnt.toNat = (s.engine.bufcnt.toNat + n.toNat) % 64 ∧ e.buffered = m.drop (64 * k) ∧
      e.phase = .active ∧ e.err = s.engine.err ∧ e.errcode = s.engine.errcode

/-- R120: with B > 0, a payload short of the top-up is retained and changes neither H nor LEN; one that reaches it
compresses the full buffer, grows LEN by 64, empties the buffer and goes on with the rest. -/
def Obligations.AbsorbTopsUpAPartialBuffer : Prop :=
  ∀ (s : State) (n : BitVec 28), s.engine.Inv → s.engine.phase = .active → 0 < s.engine.bufcnt.toNat →
    n.toNat ≤ s.din.length →
    let p := s.din.take n.toNat
    let room := 64 - s.engine.bufcnt.toNat
    (s.engine.bufcnt.toNat + n.toNat < 64 →
      ∃ t : State, exec (.absorb n) s = .next t ∧ t.engine.bufcnt.toNat = s.engine.bufcnt.toNat + n.toNat ∧
        t.engine.buffered = s.engine.buffered ++ p ∧ t.engine.h = s.engine.h ∧ t.engine.len = s.engine.len) ∧
    (64 ≤ s.engine.bufcnt.toNat + n.toNat →
      ∃ e : Engine, e.h = compress s.engine.h (s.engine.buffered ++ p.take room) ∧ e.len = s.engine.len + 64 ∧
        e.bufcnt = 0 ∧ e.buffered = [] ∧
        exec (.absorb n) s =
          exec (.absorb (BitVec.ofNat 28 (n.toNat - room))) { s with engine := e, din := s.din.drop room })

/-- R119's first corner case, C5: ABSORB of 0 bytes changes nothing, whatever the occupancy. -/
def Obligations.AbsorbOfNothingChangesNothing : Prop :=
  ∀ s : State, s.engine.Inv → s.engine.phase = .active → exec (.absorb 0) s = .next { s with inflight := none }

/-- R133: TOTAL = LEN + BUFCNT grows by exactly n modulo 2^64 with each ABSORB in phase ACTIVE; INIT sets it to 0. -/
def Obligations.TotalCountsEveryByteAbsorbed : Prop :=
  (∀ (s : State) (n : BitVec 28), s.engine.Inv → s.engine.phase = .active → n.toNat ≤ s.din.length →
    ∃ t : State, exec (.absorb n) s = .next t ∧ t.engine.total = s.engine.total + n.setWidth 64) ∧
  (∀ s : State, ∃ t : State, exec .init s = .next t ∧ t.engine.total = 0)

/-- R134: one ABSORB of p ++ q and the two ABSORBs of p and of q leave the same state, whatever the split. (The states
are equal whole because the model gives unspecified buffer bytes no value, log entry 5.) -/
def Obligations.AbsorbIsInvariantUnderChunking : Prop :=
  ∀ (s : State) (n n' : BitVec 28), s.engine.Inv → s.engine.phase = .active → n.toNat + n'.toNat < 2 ^ 28 →
    n.toNat + n'.toNat ≤ s.din.length →
    ∃ t u : State, exec (.absorb n) s = .next t ∧ exec (.absorb n') t = .next u ∧
      exec (.absorb (BitVec.ofNat 28 (n.toNat + n'.toNat))) s = .next u

/-- R214: in phase CONSUMED a well-formed ABSORB takes its n payload bytes, discards them and raises
USE_AFTER_FINALIZE; a FINALIZE raises it; INIT is legal. Nothing else changes: no response, no engine register but ERR
and the first ERRCODE (R212); `faulted` is the model's record of R218. R247: an ABSORB short of payload waits in
CONSUMED too; that it is a next state with the command in flight and the bytes accepted, where R247 says that a stuck
command has no step, and that the error is raised at the completion, are the model's choice (log entries 3, 4 and 26).
-/
def Obligations.UseAfterFinalizeDrainsAndErrs : Prop :=
  ∀ s : State, s.engine.phase = .consumed →
    let e := if s.engine.err then s.engine else { s.engine with err := true, errcode := 3 }
    (∀ n : BitVec 28, n.toNat ≤ s.din.length →
      exec (.absorb n) s =
        .next { s with engine := e, inflight := none, din := s.din.drop n.toNat, faulted := true }) ∧
    (∀ n : BitVec 28, s.din.length < n.toNat →
      exec (.absorb n) s = .next { s with inflight := some (.absorb n s.din), din := [] }) ∧
    exec .finalize s = .next { s with engine := e, inflight := none, faulted := true } ∧
    ∃ t : State, exec .init s = .next t ∧ t.engine.phase = .active ∧ t.engine.err = s.engine.err ∧
      t.faulted = s.faulted

/-- R247: an ABSORB whose payload is short, in either phase, takes what is offered and waits: BUSY is 1, no command is
accepted, no engine register has changed, and a step with no byte offered changes nothing. When the host supplies the
rest, the command completes as it would have with its whole payload offered at once. That a waiting machine takes steps
that change nothing, and keeps its registers, is the model's reading (log entries 3 and 4). -/
def Obligations.ShortAbsorbWaitsAndResumes : Prop :=
  ∀ (s : State) (n : BitVec 28) (more : List Byte), s.rst = false → s.alu.uop = none → s.din.length < n.toNat →
    ∃ t : State, exec (.absorb n) s = .next t ∧
      t = { s with inflight := some (.absorb n s.din), din := [] } ∧
      t.busy = true ∧ t.cmdReady = false ∧ t.dinReady = true ∧
      step t = .next t ∧
      (n.toNat ≤ (s.din ++ more).length → step (t.offerData more) = exec (.absorb n) (s.offerData more))

/-! ## FINALIZE -/

/-- R123 to R129, R131: in phase ACTIVE, with the host ready for the response, FINALIZE compresses the padding of the
buffered bytes, one block when there are fewer than 56 of them and else two, emits the digest of the H it leaves, and
consumes the engine. It changes no other channel and no error field. (What it leaves in LEN, BUFCNT and BUF is
unspecified by R131 and not stated here.) -/
def Obligations.FinalizePadsCompressesAndEmitsTheDigest : Prop :=
  ∀ s : State, s.engine.Inv → s.engine.phase = .active → s.rspReady = true →
    let R := s.engine.bufcnt.toNat
    let bitlen := (s.engine.len + s.engine.bufcnt.setWidth 64) * 8
    let msg := s.engine.buffered ++ [0x80]
    let h :=
      if R < 56 then compress s.engine.h (msg ++ List.replicate (55 - R) 0 ++ be64Bytes bitlen)
      else compress (compress s.engine.h (msg ++ List.replicate (63 - R) 0)) (List.replicate 56 0 ++ be64Bytes bitlen)
    ∃ e : Engine,
      exec .finalize s = .next { s with
        engine := e, inflight := none, responses := s.responses ++ [rspWord (digestBytes h)] } ∧
      e.h = h ∧ e.phase = .consumed ∧ e.err = s.engine.err ∧ e.errcode = s.engine.errcode

/-- R125, R126, R61: the blocks FINALIZE compresses are whole, the marker is byte R, the length suffix is bytes 56..63
of the last one, most significant byte first, and every other byte after the marker is 0. -/
def Obligations.PaddingBlocksAreLaidOutAsSpecified : Prop :=
  ∀ (msg : List Byte) (bitlen : BitVec 64), msg.length ≤ 63 →
    let suffix (blk : List Byte) := ∀ k < 8, blk.getD (56 + k) 0 = bitlen.extractLsb' (56 - 8 * k) 8
    (msg.length < 56 →
      let blk := msg ++ [0x80] ++ zeros (55 - msg.length) ++ be64Bytes bitlen
      (∀ H, padAndCompress H msg bitlen = compress H blk) ∧ blk.length = 64 ∧ blk.take msg.length = msg ∧
        blk.getD msg.length 0 = 0x80 ∧ (∀ j, msg.length < j → j < 56 → blk.getD j 0 = 0) ∧ suffix blk) ∧
    (56 ≤ msg.length →
      let blk := msg ++ [0x80] ++ zeros (63 - msg.length)
      let last := zeros 56 ++ be64Bytes bitlen
      (∀ H, padAndCompress H msg bitlen = compress (compress H blk) last) ∧ blk.length = 64 ∧ last.length = 64 ∧
        blk.take msg.length = msg ∧ blk.getD msg.length 0 = 0x80 ∧
        (∀ j, msg.length < j → j < 64 → blk.getD j 0 = 0) ∧ (∀ j < 56, last.getD j 0 = 0) ∧ suffix last)

/-- R62, R87, R128: the digest is 32 bytes, byte 4i + j is bits 31−8j:24−8j of H[i], and rsp[255−8k:248−8k] is byte k.
-/
def Obligations.DigestLeavesMostSignificantByteFirst : Prop :=
  ∀ H : HashState, (digestBytes H).length = 32 ∧
    (∀ i < 8, ∀ j < 4, (digestBytes H).getD (4 * i + j) 0 = (H.words.getD i 0).extractLsb' (24 - 8 * j) 8) ∧
    (∀ k < 32, (rspWord (digestBytes H)).extractLsb' (248 - 8 * k) 8 = (digestBytes H).getD k 0)

/-- R130: a message of no bytes, from the IV, is one block `0x80` and 63 zeros, and its digest is the one the source
gives. -/
def Obligations.EmptyMessageHasTheKnownDigest : Prop :=
  ∀ s : State, s.engine.h = iv → s.engine.len = 0 → s.engine.bufcnt = 0 → s.engine.phase = .active →
    s.rspReady = true →
    ∃ t : State, exec .finalize s = .next t ∧ t.engine.h = compress iv (0x80 :: List.replicate 63 0) ∧
      t.responses = s.responses ++ [0xe3b0c44298fc1c149afbf4c8996fb92427ae41e4649b934ca495991b7852b855]

/-- R249, R241: a FINALIZE that runs and whose response the host does not accept waits: BUSY is 1, rsp_valid is 1 with
the digest on rsp, no command is accepted, no engine register has changed, and a step changes nothing. When the host
accepts, it completes as it would have at once; a reset discards the digest. The form of the wait is the model's (log
entries 3 and 4). -/
def Obligations.FinalizeWaitsForItsResponseToBeAccepted : Prop :=
  ∀ s : State, s.engine.Inv → s.engine.phase = .active → s.rspReady = false → s.rst = false → s.alu.uop = none →
    ∃ t u : State, exec .finalize s = .next t ∧ t = { s with inflight := some .finalize } ∧
      t.busy = true ∧ t.cmdReady = false ∧ t.rspValid = true ∧ step t = .next t ∧
      step (t.setRspReady true) = .next u ∧ exec .finalize (s.setRspReady true) = .next u ∧
      (∃ d, t.rspData = some d ∧ u.responses = s.responses ++ [d]) ∧
      t.assertReset.rspValid = false ∧ t.assertReset.responses = s.responses

/-! ## Command errors -/

/-- R213, R212, R42: each word that spells no command, in any state and phase, sets ERR, records its code if it is the
first error since reset, takes no payload byte, emits nothing and changes no other register; the command completes.
First of the instructions, then of the words, by OP = w / 2^28 and ARG = w mod 2^28; OP = 2 is never one of them.
`faulted` is the model's record of R218. -/
def Obligations.IllegalWordsRecordTheFirstErrorOnly : Prop :=
  let erred (s : State) (code : BitVec 4) : State := { s with
    engine := if s.engine.err then s.engine else { s.engine with err := true, errcode := code }
    inflight := none, faulted := true }
  (∀ (s : State) (i : Instr) (code : BitVec 4),
    ((∃ arg, i = .illegalInitArg arg ∧ code = 2) ∨ (∃ arg, i = .illegalFinalizeArg arg ∧ code = 2) ∨
      (∃ arg, i = .illegalOp0 arg ∧ code = 1) ∨ (∃ low arg, i = .illegalOp4to7 low arg ∧ code = 1) ∨
      (∃ low arg, i = .illegalOp8toF low arg ∧ code = 1)) →
    exec i s = .next (erred s code)) ∧
  ∀ (s : State) (w : BitVec 32) (rest : List (BitVec 32)), s.Ready → s.cmd = w :: rest →
    let op := w.toNat / 2 ^ 28
    let arg := w.toNat % 2 ^ 28
    (op = 0 ∨ 4 ≤ op → step s = .next (erred { s with cmd := rest } 1)) ∧
    (op = 1 ∨ op = 3 → arg ≠ 0 → step s = .next (erred { s with cmd := rest } 2)) ∧
    (op = 2 → ∃ n, decode (.cmd w) = .ok (.absorb n))

/-- R216: one error per command, by OP, then ARG, then phase; on a state with no error yet the code recorded is that of
the first check that fails. -/
def Obligations.ErrorChecksRunInOrder : Prop :=
  ∀ (s : State) (w : BitVec 32) (rest : List (BitVec 32)), s.Ready → s.cmd = w :: rest → s.engine.err = false →
    let op := w.toNat / 2 ^ 28
    let arg := w.toNat % 2 ^ 28
    let recorded (code : BitVec 4) := ∃ t : State, step s = .next t ∧ t.inflight = none ∧
      t.engine = { s.engine with err := true, errcode := code }
    (op = 0 ∨ 4 ≤ op → recorded 1) ∧
    (op = 1 ∨ op = 3 → arg ≠ 0 → recorded 2) ∧
    (s.engine.phase = .consumed → op = 3 → arg = 0 → recorded 3) ∧
    (s.engine.phase = .consumed → op = 2 → arg ≤ s.din.length → recorded 3)

/-- R40, R42: no step but reset clears ERR or changes ERRCODE once ERR is 1. -/
def Obligations.ErrorStaysUntilReset : Prop :=
  ∀ s t : State, s.rst = false → step s = .next t → s.engine.err = true →
    t.engine.err = true ∧ t.engine.errcode = s.engine.errcode

/-- R218: the run's record of an error is never cleared, by a step or by a host move (the model keeps it across a reset
too, log entry 9). -/
def Obligations.RunFaultIsNeverCleared : Prop :=
  ∀ s t : State, s.faulted = true →
    (step s = .next t → t.faulted = true) ∧ s.assertReset.faulted = true ∧ s.releaseReset.faulted = true ∧
      (∀ w, (s.offerCommand w).faulted = true) ∧ (∀ bs, (s.offerData bs).faulted = true) ∧
      (∀ b, (s.setRspReady b).faulted = true) ∧ s.readStatus.2.faulted = true

/-! ## STATUS and the ports -/

/-- R43, R41, R38, R39: in every state bits 3 and 31:8 of STATUS read 0 and bit 2 is BUSY; between commands BUSY is 0,
bit 0 is CONSUMED, bit 1 is ERR and bits 7:4 are ERRCODE. -/
def Obligations.StatusShowsItsFields : Prop :=
  ∀ s : State,
    s.statusPort.getLsbD 3 = false ∧ s.statusPort.extractLsb' 8 24 = 0 ∧ s.statusPort.getLsbD 2 = s.busy ∧
    (s.inflight = none →
      s.busy = false ∧ s.statusPort.getLsbD 0 = decide (s.engine.phase = .consumed) ∧
        s.statusPort.getLsbD 1 = s.engine.err ∧ s.statusPort.extractLsb' 4 4 = s.engine.errcode)

/-- R250: read during a command, BUSY is 1 and each of CONSUMED, ERR and ERRCODE shows its value before the command or
its value after it, after whatever inputs (in `s'`) the command completes with. It holds for every value of the draws.
-/
def Obligations.StatusDuringACommandShowsOldOrNewFields : Prop :=
  ∀ (s s' t : State) (f : InFlight), s.inflight = some f → s'.engine = s.engine → s'.inflight = some f →
    resume f s' = .next t → t.inflight = none →
    let old := s.engine.status
    let new := t.engine.status
    s.statusPort.getLsbD 2 = true ∧
      (s.statusPort.getLsbD 0 = old.getLsbD 0 ∨ s.statusPort.getLsbD 0 = new.getLsbD 0) ∧
      (s.statusPort.getLsbD 1 = old.getLsbD 1 ∨ s.statusPort.getLsbD 1 = new.getLsbD 1) ∧
      (s.statusPort.extractLsb' 4 4 = old.extractLsb' 4 4 ∨ s.statusPort.extractLsb' 4 4 = new.extractLsb' 4 4) ∧
      s.statusPort.getLsbD 3 = false ∧ s.statusPort.extractLsb' 8 24 = 0

/-- R44, R252: reading STATUS changes nothing but the model's own count of reads, and no step depends on that count: no
command step has a draw. The count is the model's own (log entry 10). -/
def Obligations.StatusReadsNeverAffectAStep : Prop :=
  ∀ s : State, s.readStatus = (s.statusPort, { s with statusReads := s.statusReads + 1 }) ∧
    ∀ n : Nat,
      (∀ t, step s = .next t → step { s with statusReads := n } = .next { t with statusReads := n }) ∧
      (∀ r, step s = .fault r → step { s with statusReads := n } = .fault r) ∧
      (∀ r, step s = .refused r → step { s with statusReads := n } = .refused r)

/-- R85, R246: cmd_ready is 1 exactly when no command executes and reset is not asserted, and a step takes at most one
word from the command channel, the oldest, and only then. -/
def Obligations.CommandsAreAcceptedOnlyWhenReady : Prop :=
  ∀ s t : State, (s.cmdReady = true ↔ s.inflight = none ∧ s.rst = false) ∧
    (step s = .next t → t.cmd = s.cmd ∨ (s.cmdReady = true ∧ ∃ w, s.cmd = w :: t.cmd))

/-- R86, R73: a payload byte is accepted only as part of an ABSORB, in the order offered. -/
def Obligations.PayloadBytesAreTakenOnlyByAbsorb : Prop :=
  ∀ s t : State, step s = .next t →
    (∃ k, t.din = s.din.drop k) ∧
    (t.din = s.din ∨ s.dinReady = true ∨
      (s.cmdReady = true ∧ ∃ w rest n, s.cmd = w :: rest ∧ decode (.cmd w) = .ok (.absorb n)))

/-- R73, R87, R35: a step hands over at most one response, and does so exactly when a FINALIZE runs (in flight, or
accepted by this step), which takes PHASE from ACTIVE to CONSUMED and hands over the digest of the H it leaves, to a
host that is ready for it. That the digest leaves at the step that finds the host ready is the model's choice (log
entry 21). -/
def Obligations.ResponsesComeOnlyFromARunningFinalize : Prop :=
  ∀ s t : State, step s = .next t →
    (t.responses = s.responses ∧ ¬(s.engine.phase = .active ∧ t.engine.phase = .consumed)) ∨
    ((s.inflight = some .finalize ∨ (s.inflight = none ∧ s.cmd.head? = some 0x30000000)) ∧
      t.responses = s.responses ++ [rspWord (digestBytes t.engine.h)] ∧ s.rspReady = true ∧
      s.engine.phase = .active ∧ t.engine.phase = .consumed)

/-- R35, R39: without a reset, only an INIT takes PHASE from CONSUMED to ACTIVE. -/
def Obligations.OnlyInitReactivatesTheEngine : Prop :=
  ∀ s t : State, s.rst = false → step s = .next t → s.engine.phase = .consumed → t.engine.phase = .active →
    s.inflight = none ∧ s.cmd.head? = some 0x10000000 ∧ t.engine = s.engine.init

/-- R32, R34, R36, R37, R212, R221: without a reset, H changes only in a step of an INIT, an ABSORB or a FINALIZE, and
LEN, BUFCNT and BUF only in a step of an INIT or an ABSORB: one in flight, or one that this step accepts. So no
illegal word writes any of them, one with OP = 0x1 or 0x3 neither. That FINALIZE leaves LEN, BUFCNT and BUF is the
model's choice (R131, log entry 8), and so is what BUF holds (log entry 5). -/
def Obligations.HashStateIsWrittenOnlyByTheThreeCommands : Prop :=
  ∀ s t : State, s.rst = false → step s = .next t →
    let accepts (i : Instr) := s.inflight = none ∧ ∃ w rest, s.cmd = w :: rest ∧ decodeCmd w = i
    (t.engine.h ≠ s.engine.h →
      s.alu.uop = none ∧
        (s.inflight.isSome = true ∨ accepts .init ∨ (∃ n, accepts (.absorb n)) ∨ accepts .finalize)) ∧
    (t.engine.len ≠ s.engine.len ∨ t.engine.bufcnt ≠ s.engine.bufcnt ∨ t.engine.buf ≠ s.engine.buf →
      s.alu.uop = none ∧
        ((∃ n got, s.inflight = some (.absorb n got)) ∨ accepts .init ∨ ∃ n, accepts (.absorb n)))

/-! ## Steps, reset and invariants -/

/-- R115: a step of a ready engine runs the command word at the head of the channel, the word consumed. And a step of a
machine with a micro-op issued runs it, the micro-op taken (log entry 14: the model's way to run a micro-op). -/
def Obligations.StepRunsTheDecodedInstruction : Prop :=
  (∀ (s : State) (w : BitVec 32) (rest : List (BitVec 32)) (i : Instr), s.Ready → s.cmd = w :: rest →
    decode (.cmd w) = .ok i → step s = exec i { s with cmd := rest }) ∧
  (∀ (s : State) (w : BitVec 16) (i : Instr), s.rst = false → s.alu.uop = some w → decode (.uop w) = .ok i →
    step s = exec i { s with alu := { s.alu with uop := none } })

/-- A word placed where the next step takes it is what the next step runs (log entries 2 and 14: the model's choice). -/
def Obligations.PlacedWordIsRunNext : Prop :=
  ∀ s : State,
    (∀ w : BitVec 32, step (s.withFetchWord 32 w.toNat) =
      exec (decodeCmd w) { s with rst := false, inflight := none, alu := { s.alu with uop := none } }) ∧
    (∀ (w : BitVec 16) (i : Instr), decode (.uop w) = .ok i → step (s.withFetchWord 16 w.toNat) =
      exec i { s with rst := false, alu := { s.alu with uop := none } })

/-- R240, R53, R217: asserting reset, in any state and also while a command waits, puts every engine register at its
reset value (no byte of BUF has a specified one), abandons the command, and drives cmd_ready, din_ready and rsp_valid
to 0; STATUS reads 0, also while reset is asserted (R44); and steps change no register until it is released. That
reset acts at once is the model's choice (log entry 11), as is BUF without values (log entry 5). -/
def Obligations.ResetGivesTheResetValues : Prop :=
  ∀ s : State, let t := s.assertReset
    t.engine.h.words = [0x6a09e667, 0xbb67ae85, 0x3c6ef372, 0xa54ff53a, 0x510e527f, 0x9b05688c, 0x1f83d9ab,
      0x5be0cd19] ∧
    t.engine.len = 0 ∧ t.engine.bufcnt = 0 ∧ t.engine.phase = .active ∧ t.engine.err = false ∧
    t.engine.errcode = 0 ∧ (∀ j, t.engine.buf.load j = none) ∧
    State.reset.engine = t.engine ∧ t.inflight = none ∧ t.cmdReady = false ∧ t.dinReady = false ∧
    t.rspValid = false ∧ t.statusPort = 0 ∧ step t = .next t ∧ State.reset.statusPort = 0

/-- The reset state meets the invariant. -/
def Obligations.ResetStateMeetsTheInvariant : Prop := State.reset.Inv

/-- R132, R36, R37, R42, R218: every step keeps the invariant. That exactly bytes 0..BUFCNT−1 of BUF have values is the
model's choice (log entry 5), and so is that BUF, BUFCNT and LEN still meet the invariant after a FINALIZE, where R131
leaves them unspecified (log entry 8). -/
def Obligations.EveryStepKeepsTheInvariant : Prop :=
  ∀ s t : State, s.Inv → step s = .next t → t.Inv

/-- R109, R132: every host move keeps the invariant. That a reset acts at once and leaves the host's offers is the model's
choice (log entry 11). -/
def Obligations.EveryHostMoveKeepsTheInvariant : Prop :=
  ∀ s : State, s.Inv →
    (∀ w, (s.offerCommand w).Inv) ∧ (∀ bs, (s.offerData bs).Inv) ∧ (∀ b, (s.setRspReady b).Inv) ∧
      s.assertReset.Inv ∧ s.releaseReset.Inv ∧ s.readStatus.2.Inv

/-- R210, R66: the computation never fails: from a state that meets the invariant no step faults, and unless a
micro-op is issued every step answers a next state, whatever the host has sent. That a step of a waiting command
answers a next state, where R247 says that a stuck command has no step, is the model's choice (log entry 3), and so is
a step with nothing offered (log entry 2). -/
def Obligations.NoStepFaultsFromAGoodState : Prop :=
  ∀ s : State, s.Inv → (∀ r, step s ≠ .fault r) ∧ (s.alu.uop = none → ∃ t, step s = .next t)

/-! ## The function computed -/

/-- R106, R13: the pieces of a long absorb are the payload in order, each of them fits one command, and each is
assembled to the word of an ABSORB of its length. -/
def Obligations.LongAbsorbSplitsIntoLegalAbsorbs : Prop :=
  ∀ p : List Byte,
    (absorbPieces p).flatten = p ∧ (∀ q ∈ absorbPieces p, q.length ≤ 2 ^ 28 - 1) ∧
      (p.length < 2 ^ 28 → absorbPieces p = [p]) ∧
      (∀ q ∈ absorbPieces p, decode (.cmd (absorbWord q.length)) = .ok (.absorb (BitVec.ofNat 28 q.length)))

/-- R135: from any good ready state, INIT, then ABSORBs whose payloads concatenate to a message of fewer than 2^61
bytes, then FINALIZE run one command a step and emit SHA-256 of the message, however it was split, with no command
error. `sha256` is this model's transcription of FIPS 180-4 (log entry 22), and the clause `t.din = after`, that bytes
offered beyond the message wait, is the model's reading of R248 (log entry 18). -/
def Obligations.EngineComputesSha256OfTheMessage : Prop :=
  ∀ (s : State) (ps : List (List Byte)) (after : List Byte),
    s.Inv → s.Ready → s.rspReady = true → (∀ p ∈ ps, p.length < 2 ^ 28) → ps.flatten.length < 2 ^ 61 →
    s.cmd = initWord :: (ps.map (fun p => absorbWord p.length) ++ [finalizeWord]) → s.din = ps.flatten ++ after →
    ∃ t : State, Host.Core.run Sys2Proof.core (ps.length + 2) s = .next t ∧
      t.responses = s.responses ++ [rspWord (sha256 ps.flatten)] ∧ t.engine.err = s.engine.err ∧
      t.faulted = s.faulted ∧ t.Final ∧ t.din = after

/-- R108: the script line `DIGEST m`, offered to a good ready engine whose channels are empty, emits SHA-256 of `m`
and leaves PHASE = CONSUMED, for every message of fewer than 2^61 bytes. `sha256` is this model's transcription of
FIPS 180-4 (log entry 22, PRESUMED). -/
def Obligations.DigestPseudoCommandHashesTheMessage : Prop :=
  ∀ (s : State) (m : List Byte),
    s.Inv → s.Ready → s.rspReady = true → s.cmd = [] → s.din = [] → m.length < 2 ^ 61 →
    ∃ t : State,
      Host.Core.run Sys2Proof.core ((absorbPieces m).length + 2) (s.offerScript [.digest m]) = .next t ∧
      t.responses = s.responses ++ [rspWord (sha256 m)] ∧ t.engine.phase = .consumed ∧
      t.engine.err = s.engine.err ∧ t.Final
end

