-- ==== Sys2Proof/Laws/State.lean ====
section
/-! SUPPORT. One lemma per field per update of a state, each true by rfl, so that no proof unfolds a record update. -/

namespace Sys2Proof.Laws

open Sys2Proof.Machine

/-! setOccupancy -/

@[simp] theorem setOccupancy_h (e : Engine) (n : Nat) :
    (e.setOccupancy n).h = e.h := rfl
@[simp] theorem setOccupancy_len (e : Engine) (n : Nat) :
    (e.setOccupancy n).len = e.len := rfl
@[simp] theorem setOccupancy_buf (e : Engine) (n : Nat) :
    (e.setOccupancy n).buf = e.buf.keepBelow n := rfl
@[simp] theorem setOccupancy_bufcnt (e : Engine) (n : Nat) :
    (e.setOccupancy n).bufcnt = BitVec.ofNat 6 n := rfl
@[simp] theorem setOccupancy_phase (e : Engine) (n : Nat) :
    (e.setOccupancy n).phase = e.phase := rfl
@[simp] theorem setOccupancy_err (e : Engine) (n : Nat) :
    (e.setOccupancy n).err = e.err := rfl
@[simp] theorem setOccupancy_errcode (e : Engine) (n : Nat) :
    (e.setOccupancy n).errcode = e.errcode := rfl

/-! compressBlock -/

@[simp] theorem compressBlock_h (e : Engine) (blk : List Byte) :
    (e.compressBlock blk).h = compress e.h blk := by cases e; rfl
@[simp] theorem compressBlock_len (e : Engine) (blk : List Byte) :
    (e.compressBlock blk).len = e.len + 64 := by cases e; rfl
@[simp] theorem compressBlock_buf (e : Engine) (blk : List Byte) :
    (e.compressBlock blk).buf = e.buf := by cases e; rfl
@[simp] theorem compressBlock_bufcnt (e : Engine) (blk : List Byte) :
    (e.compressBlock blk).bufcnt = e.bufcnt := by cases e; rfl
@[simp] theorem compressBlock_phase (e : Engine) (blk : List Byte) :
    (e.compressBlock blk).phase = e.phase := by cases e; rfl
@[simp] theorem compressBlock_err (e : Engine) (blk : List Byte) :
    (e.compressBlock blk).err = e.err := by cases e; rfl
@[simp] theorem compressBlock_errcode (e : Engine) (blk : List Byte) :
    (e.compressBlock blk).errcode = e.errcode := by cases e; rfl

/-! engineInit -/

@[simp] theorem engineInit_h (e : Engine) :
    (e.init).h = iv := rfl
@[simp] theorem engineInit_len (e : Engine) :
    (e.init).len = 0 := rfl
@[simp] theorem engineInit_buf (e : Engine) :
    (e.init).buf = e.buf.keepBelow 0 := rfl
@[simp] theorem engineInit_bufcnt (e : Engine) :
    (e.init).bufcnt = 0 := rfl
@[simp] theorem engineInit_phase (e : Engine) :
    (e.init).phase = .active := rfl
@[simp] theorem engineInit_err (e : Engine) :
    (e.init).err = e.err := rfl
@[simp] theorem engineInit_errcode (e : Engine) :
    (e.init).errcode = e.errcode := rfl

/-! complete -/

@[simp] theorem complete_engine (s : State) (e : Engine) :
    (s.complete e).engine = e := rfl
@[simp] theorem complete_inflight (s : State) (e : Engine) :
    (s.complete e).inflight = none := rfl
@[simp] theorem complete_cmd (s : State) (e : Engine) :
    (s.complete e).cmd = s.cmd := rfl
@[simp] theorem complete_din (s : State) (e : Engine) :
    (s.complete e).din = s.din := rfl
@[simp] theorem complete_rspReady (s : State) (e : Engine) :
    (s.complete e).rspReady = s.rspReady := rfl
@[simp] theorem complete_responses (s : State) (e : Engine) :
    (s.complete e).responses = s.responses := rfl
@[simp] theorem complete_rst (s : State) (e : Engine) :
    (s.complete e).rst = s.rst := rfl
@[simp] theorem complete_alu (s : State) (e : Engine) :
    (s.complete e).alu = s.alu := rfl
@[simp] theorem complete_faulted (s : State) (e : Engine) :
    (s.complete e).faulted = s.faulted := rfl
@[simp] theorem complete_statusReads (s : State) (e : Engine) :
    (s.complete e).statusReads = s.statusReads := rfl

/-! raise -/

@[simp] theorem raise_engine (s : State) (code : CmdErrorCode) :
    (s.raise code).engine = s.engine.recordError code := rfl
@[simp] theorem raise_inflight (s : State) (code : CmdErrorCode) :
    (s.raise code).inflight = none := rfl
@[simp] theorem raise_cmd (s : State) (code : CmdErrorCode) :
    (s.raise code).cmd = s.cmd := rfl
@[simp] theorem raise_din (s : State) (code : CmdErrorCode) :
    (s.raise code).din = s.din := rfl
@[simp] theorem raise_rspReady (s : State) (code : CmdErrorCode) :
    (s.raise code).rspReady = s.rspReady := rfl
@[simp] theorem raise_responses (s : State) (code : CmdErrorCode) :
    (s.raise code).responses = s.responses := rfl
@[simp] theorem raise_rst (s : State) (code : CmdErrorCode) :
    (s.raise code).rst = s.rst := rfl
@[simp] theorem raise_alu (s : State) (code : CmdErrorCode) :
    (s.raise code).alu = s.alu := rfl
@[simp] theorem raise_faulted (s : State) (code : CmdErrorCode) :
    (s.raise code).faulted = true := rfl
@[simp] theorem raise_statusReads (s : State) (code : CmdErrorCode) :
    (s.raise code).statusReads = s.statusReads := rfl

/-! wait -/

@[simp] theorem wait_engine (s : State) (f : InFlight) :
    (s.wait f).engine = s.engine := rfl
@[simp] theorem wait_inflight (s : State) (f : InFlight) :
    (s.wait f).inflight = some f := rfl
@[simp] theorem wait_cmd (s : State) (f : InFlight) :
    (s.wait f).cmd = s.cmd := rfl
@[simp] theorem wait_din (s : State) (f : InFlight) :
    (s.wait f).din = s.din := rfl
@[simp] theorem wait_rspReady (s : State) (f : InFlight) :
    (s.wait f).rspReady = s.rspReady := rfl
@[simp] theorem wait_responses (s : State) (f : InFlight) :
    (s.wait f).responses = s.responses := rfl
@[simp] theorem wait_rst (s : State) (f : InFlight) :
    (s.wait f).rst = s.rst := rfl
@[simp] theorem wait_alu (s : State) (f : InFlight) :
    (s.wait f).alu = s.alu := rfl
@[simp] theorem wait_faulted (s : State) (f : InFlight) :
    (s.wait f).faulted = s.faulted := rfl
@[simp] theorem wait_statusReads (s : State) (f : InFlight) :
    (s.wait f).statusReads = s.statusReads := rfl

/-! respond -/

@[simp] theorem respond_engine (s : State) (d : List Byte) :
    (s.respond d).engine = s.engine := rfl
@[simp] theorem respond_inflight (s : State) (d : List Byte) :
    (s.respond d).inflight = s.inflight := rfl
@[simp] theorem respond_cmd (s : State) (d : List Byte) :
    (s.respond d).cmd = s.cmd := rfl
@[simp] theorem respond_din (s : State) (d : List Byte) :
    (s.respond d).din = s.din := rfl
@[simp] theorem respond_rspReady (s : State) (d : List Byte) :
    (s.respond d).rspReady = s.rspReady := rfl
@[simp] theorem respond_responses (s : State) (d : List Byte) :
    (s.respond d).responses = s.responses ++ [rspWord d] := rfl
@[simp] theorem respond_rst (s : State) (d : List Byte) :
    (s.respond d).rst = s.rst := rfl
@[simp] theorem respond_alu (s : State) (d : List Byte) :
    (s.respond d).alu = s.alu := rfl
@[simp] theorem respond_faulted (s : State) (d : List Byte) :
    (s.respond d).faulted = s.faulted := rfl
@[simp] theorem respond_statusReads (s : State) (d : List Byte) :
    (s.respond d).statusReads = s.statusReads := rfl

/-! hardwareReset -/

@[simp] theorem hardwareReset_engine (s : State) :
    (s.hardwareReset).engine = Engine.reset := rfl
@[simp] theorem hardwareReset_inflight (s : State) :
    (s.hardwareReset).inflight = none := rfl
@[simp] theorem hardwareReset_cmd (s : State) :
    (s.hardwareReset).cmd = s.cmd := rfl
@[simp] theorem hardwareReset_din (s : State) :
    (s.hardwareReset).din = s.din := rfl
@[simp] theorem hardwareReset_rspReady (s : State) :
    (s.hardwareReset).rspReady = s.rspReady := rfl
@[simp] theorem hardwareReset_responses (s : State) :
    (s.hardwareReset).responses = s.responses := rfl
@[simp] theorem hardwareReset_rst (s : State) :
    (s.hardwareReset).rst = s.rst := rfl
@[simp] theorem hardwareReset_alu (s : State) :
    (s.hardwareReset).alu = { s.alu with uop := none } := rfl
@[simp] theorem hardwareReset_faulted (s : State) :
    (s.hardwareReset).faulted = s.faulted := rfl
@[simp] theorem hardwareReset_statusReads (s : State) :
    (s.hardwareReset).statusReads = s.statusReads := rfl

/-! setY -/

@[simp] theorem setY_engine (s : State) (y : Word) :
    (s.setY y).engine = s.engine := rfl
@[simp] theorem setY_inflight (s : State) (y : Word) :
    (s.setY y).inflight = s.inflight := rfl
@[simp] theorem setY_cmd (s : State) (y : Word) :
    (s.setY y).cmd = s.cmd := rfl
@[simp] theorem setY_din (s : State) (y : Word) :
    (s.setY y).din = s.din := rfl
@[simp] theorem setY_rspReady (s : State) (y : Word) :
    (s.setY y).rspReady = s.rspReady := rfl
@[simp] theorem setY_responses (s : State) (y : Word) :
    (s.setY y).responses = s.responses := rfl
@[simp] theorem setY_rst (s : State) (y : Word) :
    (s.setY y).rst = s.rst := rfl
@[simp] theorem setY_alu (s : State) (y : Word) :
    (s.setY y).alu = { s.alu with y := y } := rfl
@[simp] theorem setY_faulted (s : State) (y : Word) :
    (s.setY y).faulted = s.faulted := rfl
@[simp] theorem setY_statusReads (s : State) (y : Word) :
    (s.setY y).statusReads = s.statusReads := rfl

/-! acceptPayload -/

@[simp] theorem acceptPayload_engine (arg : BitVec 28) (got : List Byte) (s : State) :
    (acceptPayload arg got s).engine = s.engine := rfl
@[simp] theorem acceptPayload_inflight (arg : BitVec 28) (got : List Byte) (s : State) :
    (acceptPayload arg got s).inflight = s.inflight := rfl
@[simp] theorem acceptPayload_cmd (arg : BitVec 28) (got : List Byte) (s : State) :
    (acceptPayload arg got s).cmd = s.cmd := rfl
@[simp] theorem acceptPayload_din (arg : BitVec 28) (got : List Byte) (s : State) :
    (acceptPayload arg got s).din = s.din.drop (payloadLength arg - got.length) := rfl
@[simp] theorem acceptPayload_rspReady (arg : BitVec 28) (got : List Byte) (s : State) :
    (acceptPayload arg got s).rspReady = s.rspReady := rfl
@[simp] theorem acceptPayload_responses (arg : BitVec 28) (got : List Byte) (s : State) :
    (acceptPayload arg got s).responses = s.responses := rfl
@[simp] theorem acceptPayload_rst (arg : BitVec 28) (got : List Byte) (s : State) :
    (acceptPayload arg got s).rst = s.rst := rfl
@[simp] theorem acceptPayload_alu (arg : BitVec 28) (got : List Byte) (s : State) :
    (acceptPayload arg got s).alu = s.alu := rfl
@[simp] theorem acceptPayload_faulted (arg : BitVec 28) (got : List Byte) (s : State) :
    (acceptPayload arg got s).faulted = s.faulted := rfl
@[simp] theorem acceptPayload_statusReads (arg : BitVec 28) (got : List Byte) (s : State) :
    (acceptPayload arg got s).statusReads = s.statusReads := rfl

/-! takeCommand -/

@[simp] theorem takeCommand_engine (s : State) :
    (s.takeCommand).engine = s.engine := rfl
@[simp] theorem takeCommand_inflight (s : State) :
    (s.takeCommand).inflight = s.inflight := rfl
@[simp] theorem takeCommand_cmd (s : State) :
    (s.takeCommand).cmd = s.cmd.tail := rfl
@[simp] theorem takeCommand_din (s : State) :
    (s.takeCommand).din = s.din := rfl
@[simp] theorem takeCommand_rspReady (s : State) :
    (s.takeCommand).rspReady = s.rspReady := rfl
@[simp] theorem takeCommand_responses (s : State) :
    (s.takeCommand).responses = s.responses := rfl
@[simp] theorem takeCommand_rst (s : State) :
    (s.takeCommand).rst = s.rst := rfl
@[simp] theorem takeCommand_alu (s : State) :
    (s.takeCommand).alu = s.alu := rfl
@[simp] theorem takeCommand_faulted (s : State) :
    (s.takeCommand).faulted = s.faulted := rfl
@[simp] theorem takeCommand_statusReads (s : State) :
    (s.takeCommand).statusReads = s.statusReads := rfl

/-! takeMicroOp -/

@[simp] theorem takeMicroOp_engine (s : State) :
    (s.takeMicroOp).engine = s.engine := rfl
@[simp] theorem takeMicroOp_inflight (s : State) :
    (s.takeMicroOp).inflight = s.inflight := rfl
@[simp] theorem takeMicroOp_cmd (s : State) :
    (s.takeMicroOp).cmd = s.cmd := rfl
@[simp] theorem takeMicroOp_din (s : State) :
    (s.takeMicroOp).din = s.din := rfl
@[simp] theorem takeMicroOp_rspReady (s : State) :
    (s.takeMicroOp).rspReady = s.rspReady := rfl
@[simp] theorem takeMicroOp_responses (s : State) :
    (s.takeMicroOp).responses = s.responses := rfl
@[simp] theorem takeMicroOp_rst (s : State) :
    (s.takeMicroOp).rst = s.rst := rfl
@[simp] theorem takeMicroOp_alu (s : State) :
    (s.takeMicroOp).alu = { s.alu with uop := none } := rfl
@[simp] theorem takeMicroOp_faulted (s : State) :
    (s.takeMicroOp).faulted = s.faulted := rfl
@[simp] theorem takeMicroOp_statusReads (s : State) :
    (s.takeMicroOp).statusReads = s.statusReads := rfl

/-! offerCommand -/

@[simp] theorem offerCommand_engine (s : State) (w : BitVec 32) :
    (s.offerCommand w).engine = s.engine := rfl
@[simp] theorem offerCommand_inflight (s : State) (w : BitVec 32) :
    (s.offerCommand w).inflight = s.inflight := rfl
@[simp] theorem offerCommand_cmd (s : State) (w : BitVec 32) :
    (s.offerCommand w).cmd = s.cmd ++ [w] := rfl
@[simp] theorem offerCommand_din (s : State) (w : BitVec 32) :
    (s.offerCommand w).din = s.din := rfl
@[simp] theorem offerCommand_rspReady (s : State) (w : BitVec 32) :
    (s.offerCommand w).rspReady = s.rspReady := rfl
@[simp] theorem offerCommand_responses (s : State) (w : BitVec 32) :
    (s.offerCommand w).responses = s.responses := rfl
@[simp] theorem offerCommand_rst (s : State) (w : BitVec 32) :
    (s.offerCommand w).rst = s.rst := rfl
@[simp] theorem offerCommand_alu (s : State) (w : BitVec 32) :
    (s.offerCommand w).alu = s.alu := rfl
@[simp] theorem offerCommand_faulted (s : State) (w : BitVec 32) :
    (s.offerCommand w).faulted = s.faulted := rfl
@[simp] theorem offerCommand_statusReads (s : State) (w : BitVec 32) :
    (s.offerCommand w).statusReads = s.statusReads := rfl

/-! offerData -/

@[simp] theorem offerData_engine (s : State) (bs : List Byte) :
    (s.offerData bs).engine = s.engine := rfl
@[simp] theorem offerData_inflight (s : State) (bs : List Byte) :
    (s.offerData bs).inflight = s.inflight := rfl
@[simp] theorem offerData_cmd (s : State) (bs : List Byte) :
    (s.offerData bs).cmd = s.cmd := rfl
@[simp] theorem offerData_din (s : State) (bs : List Byte) :
    (s.offerData bs).din = s.din ++ bs := rfl
@[simp] theorem offerData_rspReady (s : State) (bs : List Byte) :
    (s.offerData bs).rspReady = s.rspReady := rfl
@[simp] theorem offerData_responses (s : State) (bs : List Byte) :
    (s.offerData bs).responses = s.responses := rfl
@[simp] theorem offerData_rst (s : State) (bs : List Byte) :
    (s.offerData bs).rst = s.rst := rfl
@[simp] theorem offerData_alu (s : State) (bs : List Byte) :
    (s.offerData bs).alu = s.alu := rfl
@[simp] theorem offerData_faulted (s : State) (bs : List Byte) :
    (s.offerData bs).faulted = s.faulted := rfl
@[simp] theorem offerData_statusReads (s : State) (bs : List Byte) :
    (s.offerData bs).statusReads = s.statusReads := rfl

/-! setRspReady -/

@[simp] theorem setRspReady_engine (s : State) (b : Bool) :
    (s.setRspReady b).engine = s.engine := rfl
@[simp] theorem setRspReady_inflight (s : State) (b : Bool) :
    (s.setRspReady b).inflight = s.inflight := rfl
@[simp] theorem setRspReady_cmd (s : State) (b : Bool) :
    (s.setRspReady b).cmd = s.cmd := rfl
@[simp] theorem setRspReady_din (s : State) (b : Bool) :
    (s.setRspReady b).din = s.din := rfl
@[simp] theorem setRspReady_rspReady (s : State) (b : Bool) :
    (s.setRspReady b).rspReady = b := rfl
@[simp] theorem setRspReady_responses (s : State) (b : Bool) :
    (s.setRspReady b).responses = s.responses := rfl
@[simp] theorem setRspReady_rst (s : State) (b : Bool) :
    (s.setRspReady b).rst = s.rst := rfl
@[simp] theorem setRspReady_alu (s : State) (b : Bool) :
    (s.setRspReady b).alu = s.alu := rfl
@[simp] theorem setRspReady_faulted (s : State) (b : Bool) :
    (s.setRspReady b).faulted = s.faulted := rfl
@[simp] theorem setRspReady_statusReads (s : State) (b : Bool) :
    (s.setRspReady b).statusReads = s.statusReads := rfl

/-! assertReset -/

@[simp] theorem assertReset_engine (s : State) :
    (s.assertReset).engine = Engine.reset := rfl
@[simp] theorem assertReset_inflight (s : State) :
    (s.assertReset).inflight = none := rfl
@[simp] theorem assertReset_cmd (s : State) :
    (s.assertReset).cmd = s.cmd := rfl
@[simp] theorem assertReset_din (s : State) :
    (s.assertReset).din = s.din := rfl
@[simp] theorem assertReset_rspReady (s : State) :
    (s.assertReset).rspReady = s.rspReady := rfl
@[simp] theorem assertReset_responses (s : State) :
    (s.assertReset).responses = s.responses := rfl
@[simp] theorem assertReset_rst (s : State) :
    (s.assertReset).rst = true := rfl
@[simp] theorem assertReset_alu (s : State) :
    (s.assertReset).alu = { s.alu with uop := none } := rfl
@[simp] theorem assertReset_faulted (s : State) :
    (s.assertReset).faulted = s.faulted := rfl
@[simp] theorem assertReset_statusReads (s : State) :
    (s.assertReset).statusReads = s.statusReads := rfl

/-! releaseReset -/

@[simp] theorem releaseReset_engine (s : State) :
    (s.releaseReset).engine = s.engine := rfl
@[simp] theorem releaseReset_inflight (s : State) :
    (s.releaseReset).inflight = s.inflight := rfl
@[simp] theorem releaseReset_cmd (s : State) :
    (s.releaseReset).cmd = s.cmd := rfl
@[simp] theorem releaseReset_din (s : State) :
    (s.releaseReset).din = s.din := rfl
@[simp] theorem releaseReset_rspReady (s : State) :
    (s.releaseReset).rspReady = s.rspReady := rfl
@[simp] theorem releaseReset_responses (s : State) :
    (s.releaseReset).responses = s.responses := rfl
@[simp] theorem releaseReset_rst (s : State) :
    (s.releaseReset).rst = false := rfl
@[simp] theorem releaseReset_alu (s : State) :
    (s.releaseReset).alu = s.alu := rfl
@[simp] theorem releaseReset_faulted (s : State) :
    (s.releaseReset).faulted = s.faulted := rfl
@[simp] theorem releaseReset_statusReads (s : State) :
    (s.releaseReset).statusReads = s.statusReads := rfl

/-! recordError: ERR and ERRCODE, and nothing else (R212). -/

@[simp] theorem recordError_h (e : Engine) (code : CmdErrorCode) : (e.recordError code).h = e.h := by
  unfold Engine.recordError; split <;> rfl
@[simp] theorem recordError_len (e : Engine) (code : CmdErrorCode) : (e.recordError code).len = e.len := by
  unfold Engine.recordError; split <;> rfl
@[simp] theorem recordError_buf (e : Engine) (code : CmdErrorCode) : (e.recordError code).buf = e.buf := by
  unfold Engine.recordError; split <;> rfl
@[simp] theorem recordError_bufcnt (e : Engine) (code : CmdErrorCode) : (e.recordError code).bufcnt = e.bufcnt := by
  unfold Engine.recordError; split <;> rfl
@[simp] theorem recordError_phase (e : Engine) (code : CmdErrorCode) : (e.recordError code).phase = e.phase := by
  unfold Engine.recordError; split <;> rfl
@[simp] theorem recordError_err (e : Engine) (code : CmdErrorCode) : (e.recordError code).err = true := by
  unfold Engine.recordError
  split
  · assumption
  · rfl
theorem recordError_errcode (e : Engine) (code : CmdErrorCode) :
    (e.recordError code).errcode = if e.err then e.errcode else code.value := by
  unfold Engine.recordError; split <;> rfl

end Sys2Proof.Laws
end

