-- ==== Sys2Proof/Laws/Alu.lean ====
section
/-! SUPPORT. The ALU's functions bit by bit. -/

namespace Sys2Proof.Laws

open Sys2Proof.Machine

theorem xor_bit (a b : Word) (i : Nat) : (Alu.xor a b).getLsbD i = (a.getLsbD i ^^ b.getLsbD i) := by
  simp [Alu.xor]

theorem and_bit (a b : Word) (i : Nat) : (Alu.and a b).getLsbD i = (a.getLsbD i && b.getLsbD i) := by
  simp [Alu.and]

theorem not_bit (a : Word) {i : Nat} (hi : i < 32) : (Alu.not a).getLsbD i = !a.getLsbD i := by
  simp [Alu.not, hi]

/-- Bit i of a rotation (R191). -/
theorem rotr_bit (a : Word) (s : BitVec 5) {i : Nat} (hi : i < 32) :
    (Alu.rotr a s).getLsbD i = a.getLsbD ((i + s.toNat) % 32) := by
  have hs : s.toNat < 32 := s.isLt
  unfold Alu.rotr
  rw [BitVec.getLsbD_rotateRight, Nat.mod_eq_of_lt hs]
  by_cases h : i < 32 - s.toNat
  · have : (i + s.toNat) % 32 = s.toNat + i := by omega
    simp [h, this]
  · have : (i + s.toNat) % 32 = i - (32 - s.toNat) := by omega
    simp [h, hi, this]

/-- Bit i of a shift (R192). -/
theorem shr_bit (a : Word) (s : BitVec 5) (i : Nat) :
    (Alu.shr a s).getLsbD i = (decide (i + s.toNat ≤ 31) && a.getLsbD (i + s.toNat)) := by
  unfold Alu.shr
  rw [BitVec.getLsbD_ushiftRight, Nat.add_comm]
  by_cases h : i + s.toNat ≤ 31
  · simp [h]
  · rw [BitVec.getLsbD_of_ge _ _ (by omega)]
    simp [h]

end Sys2Proof.Laws
end

