-- ==== Sys2Proof/Laws/Memory.lean ====
section
/-! SUPPORT. The buffer: what its operations do to the canonical form, and what they read and write on a buffer whose
first n bytes, and no others, have values. -/

namespace Sys2Proof.Laws

open Sys2Proof.Machine

/-- Rising from a later index is rising from an earlier one. -/
theorem risingFrom_mono {m : Memory} {a b : Nat} (hab : a ≤ b) (h : m.risingFrom b = true) :
    m.risingFrom a = true := by
  cases m with
  | nil => rfl
  | cons c m =>
    simp only [Memory.risingFrom, Bool.and_eq_true, decide_eq_true_eq] at h ⊢
    exact ⟨⟨by omega, h.1.2⟩, h.2⟩

theorem risingFrom_store {m : Memory} {a j : Nat} {b : Byte} (ha : a ≤ j) (hj : j < 64)
    (h : m.risingFrom a = true) : (m.store j b).risingFrom a = true := by
  induction m generalizing a with
  | nil => simp [Memory.store, Memory.risingFrom, ha, hj]
  | cons c m ih =>
    simp only [Memory.risingFrom, Bool.and_eq_true, decide_eq_true_eq] at h
    unfold Memory.store
    split
    · simp [Memory.risingFrom, ha, hj, h.1.2, h.2]
      omega
    · split
      · subst j
        simp [Memory.risingFrom, h.1.1, h.1.2, h.2]
      · simp only [Memory.risingFrom, Bool.and_eq_true, decide_eq_true_eq]
        exact ⟨h.1, ih (by omega) h.2⟩

/-- A store inside the buffer keeps the canonical form. -/
theorem wf_store {m : Memory} {j : Nat} {b : Byte} (hj : j < 64) (h : m.wf = true) : (m.store j b).wf = true :=
  risingFrom_store (Nat.zero_le j) hj h

theorem wf_storeBytes {m : Memory} {j : Nat} {s : List Byte} (hj : j + s.length ≤ 64) (h : m.wf = true) :
    (m.storeBytes j s).wf = true := by
  induction s generalizing m j with
  | nil => exact h
  | cons b s ih =>
    simp only [List.length_cons] at hj
    exact ih (by omega) (wf_store (by omega) h)

/-- MemWrite keeps the canonical form. -/
theorem wf_memWrite {m m' : Memory} {j : Nat} {s : List Byte} (h : m.wf = true) (hw : memWrite m j s = .ok m') :
    m'.wf = true := by
  unfold memWrite at hw
  split at hw
  · cases hw
    exact wf_storeBytes ‹_› h
  · cases hw

theorem risingFrom_keepBelow {m : Memory} {a n : Nat} (h : m.risingFrom a = true) :
    (m.keepBelow n).risingFrom a = true := by
  induction m generalizing a with
  | nil => rfl
  | cons c m ih =>
    simp only [Memory.risingFrom, Bool.and_eq_true, decide_eq_true_eq] at h
    simp only [Memory.keepBelow, List.filter_cons] at ih ⊢
    split
    · simp only [Memory.risingFrom, Bool.and_eq_true, decide_eq_true_eq]
      exact ⟨h.1, ih h.2⟩
    · exact risingFrom_mono (by omega) (ih h.2)

/-- Forgetting the bytes at n and beyond keeps the canonical form. -/
theorem wf_keepBelow {m : Memory} {n : Nat} (h : m.wf = true) : (m.keepBelow n).wf = true :=
  risingFrom_keepBelow h

/-- The reset buffer is in canonical form. -/
theorem wf_reset : State.reset.engine.buf.wf = true := rfl

/-- A read after a store to the same index gives the byte stored. -/
@[simp] theorem load_store_same (m : Memory) (j : Nat) (b : Byte) : (m.store j b).load j = some b := by
  induction m with
  | nil => simp [Memory.store, Memory.load]
  | cons c m ih =>
    unfold Memory.store
    split
    · simp [Memory.load]
    · split
      · simp [Memory.load]
      · have : c.1 ≠ j := by omega
        simp [Memory.load, this, ih]

/-- A store leaves every other index alone. -/
theorem load_store_other {m : Memory} {j k : Nat} {b : Byte} (hk : k ≠ j) : (m.store j b).load k = m.load k := by
  induction m with
  | nil => simp [Memory.store, Memory.load, Ne.symm hk]
  | cons c m ih =>
    unfold Memory.store
    split
    · simp [Memory.load, Ne.symm hk]
    · split
      · subst j
        simp [Memory.load, Ne.symm hk]
      · simp only [Memory.load, ih]

/-- A byte written by MemWrite is read back; the others are as before (R66). -/
theorem load_storeBytes {m : Memory} {j k : Nat} {s : List Byte} :
    (m.storeBytes j s).load k = if j ≤ k ∧ k < j + s.length then s[k - j]? else m.load k := by
  induction s generalizing m j with
  | nil =>
    have : ¬(j ≤ k ∧ k < j + ([] : List Byte).length) := by simp only [List.length_nil]; omega
    rw [if_neg this]
    rfl
  | cons b s ih =>
    simp only [Memory.storeBytes, ih, List.length_cons]
    by_cases hk : k = j
    · subst k
      have h1 : ¬(j + 1 ≤ j ∧ j < j + 1 + s.length) := by omega
      have h2 : j ≤ j ∧ j < j + (s.length + 1) := by omega
      rw [if_neg h1, if_pos h2]
      simp
    · by_cases hin : j + 1 ≤ k ∧ k < j + 1 + s.length
      · have h2 : j ≤ k ∧ k < j + (s.length + 1) := by omega
        rw [if_pos hin, if_pos h2]
        have : k - j = (k - (j + 1)) + 1 := by omega
        rw [this, List.getElem?_cons_succ]
      · have h2 : ¬(j ≤ k ∧ k < j + (s.length + 1)) := by omega
        rw [if_neg hin, if_neg h2, load_store_other hk]

/-- Storing just past the last listed index appends. -/
theorem store_append {m : Memory} {j : Nat} {b : Byte} (h : ∀ c ∈ m, c.1 < j) : m.store j b = m ++ [(j, b)] := by
  induction m with
  | nil => rfl
  | cons c m ih =>
    have hc : c.1 < j := h c (by simp)
    unfold Memory.store
    rw [if_neg (by omega), if_neg (by omega), ih (fun d hd => h d (by simp [hd]))]
    rfl

/-- The cells that hold the bytes `s` from index j on. -/
def cellsFrom (j : Nat) : List Byte → Memory
  | [] => []
  | b :: s => (j, b) :: cellsFrom (j + 1) s

@[simp] theorem cellsFrom_fst (j : Nat) (s : List Byte) : (cellsFrom j s).map Prod.fst = List.range' j s.length := by
  induction s generalizing j with
  | nil => rfl
  | cons b s ih => simp [cellsFrom, ih, List.range'_succ]

@[simp] theorem cellsFrom_snd (j : Nat) (s : List Byte) : (cellsFrom j s).map Prod.snd = s := by
  induction s generalizing j with
  | nil => rfl
  | cons b s ih => simp [cellsFrom, ih]

theorem cellsFrom_append (j : Nat) (s s' : List Byte) :
    cellsFrom j (s ++ s') = cellsFrom j s ++ cellsFrom (j + s.length) s' := by
  induction s generalizing j with
  | nil => rfl
  | cons b s ih =>
    simp [cellsFrom, ih, Nat.add_comm, Nat.add_assoc]

theorem cellsFrom_lt {j : Nat} {s : List Byte} : ∀ c ∈ cellsFrom j s, c.1 < j + s.length := by
  induction s generalizing j with
  | nil => simp [cellsFrom]
  | cons b s ih =>
    intro c hc
    simp only [cellsFrom, List.mem_cons] at hc
    rcases hc with rfl | hc
    · simp
    · have := ih c hc
      simp only [List.length_cons]
      omega

/-- Appending bytes to the buffered ones. -/
theorem storeBytes_cellsFrom (j : Nat) (s s' : List Byte) :
    (cellsFrom j s).storeBytes (j + s.length) s' = cellsFrom j (s ++ s') := by
  induction s' generalizing s with
  | nil => simp [Memory.storeBytes]
  | cons b s' ih =>
    have hst : (cellsFrom j s).store (j + s.length) b = cellsFrom j (s ++ [b]) := by
      rw [store_append cellsFrom_lt, cellsFrom_append]
      rfl
    have hlen : j + s.length + 1 = j + (s ++ [b]).length := by simp [Nat.add_assoc]
    simp only [Memory.storeBytes]
    rw [hst, hlen, ih, List.append_assoc]
    rfl

/-- Overwriting the buffer from empty. -/
theorem storeBytes_nil (s : List Byte) : Memory.storeBytes [] 0 s = cellsFrom 0 s := by
  simpa [cellsFrom] using storeBytes_cellsFrom 0 [] s

theorem load_skip {m : Memory} {c : Host.Cell} {j : Nat} (h : c.1 ≠ j) : Memory.load (c :: m) j = m.load j := by
  simp [Memory.load, h]

theorem loadBytes_skip {m : Memory} {c : Host.Cell} {j n : Nat} (h : c.1 < j) :
    Memory.loadBytes (c :: m) j n = m.loadBytes j n := by
  induction n generalizing j with
  | zero => rfl
  | succ n ih => simp only [Memory.loadBytes, load_skip (show c.1 ≠ j by omega), ih (show c.1 < j + 1 by omega)]

/-- Reading what is there. -/
theorem loadBytes_cellsFrom (j : Nat) (s : List Byte) : (cellsFrom j s).loadBytes j s.length = .ok s := by
  induction s generalizing j with
  | nil => rfl
  | cons b s ih =>
    simp only [cellsFrom, List.length_cons, Memory.loadBytes]
    rw [loadBytes_skip (by simp), ih]
    simp [Memory.load]

theorem keepBelow_cellsFrom {j n : Nat} {s : List Byte} (h : j + s.length ≤ n) :
    (cellsFrom j s).keepBelow n = cellsFrom j s := by
  simp only [Memory.keepBelow, List.filter_eq_self, decide_eq_true_eq]
  intro c hc
  have := cellsFrom_lt c hc
  omega

@[simp] theorem keepBelow_zero (m : Memory) : m.keepBelow 0 = [] := by
  simp [Memory.keepBelow]

/-- A buffer whose listed indexes are 0, 1, …, n − 1 is the cells of its bytes. -/
theorem eq_cellsFrom {m : Memory} {j n : Nat} (h : m.map Prod.fst = List.range' j n) :
    m = cellsFrom j (m.map Prod.snd) := by
  induction m generalizing j n with
  | nil => rfl
  | cons c m ih =>
    cases n with
    | zero => simp at h
    | succ n =>
      simp only [List.map_cons, List.range'_succ, List.cons.injEq] at h
      simp only [List.map_cons, cellsFrom]
      rw [← ih h.2, ← h.1]

/-- The canonical form of the cells of some bytes that fit. -/
theorem risingFrom_cellsFrom {j : Nat} {s : List Byte} (h : j + s.length ≤ 64) :
    (cellsFrom j s).risingFrom j = true := by
  induction s generalizing j with
  | nil => rfl
  | cons b s ih =>
    simp only [List.length_cons] at h
    simp only [cellsFrom, Memory.risingFrom, Bool.and_eq_true, decide_eq_true_eq]
    exact ⟨⟨Nat.le_refl j, by omega⟩, ih (by omega)⟩

end Sys2Proof.Laws
end

