-- ==== Sys2Proof/Laws/Engine.lean ====
section
/-! SUPPORT. What the engine's operations do to a state that keeps the invariant: the buffer of such a state is the cells
of its buffered bytes, and each operation on it is said once. -/

namespace Sys2Proof.Laws

open Sys2Proof.Machine

/-- The buffer of a good engine is the cells of its buffered bytes. -/
theorem buf_eq {e : Engine} (h : e.Inv) : e.buf = cellsFrom 0 e.buffered := by
  have h2 := h.2.1
  rw [List.range_eq_range'] at h2
  exact eq_cellsFrom h2

/-- BUFCNT counts the buffered bytes (R37). -/
theorem buffered_length {e : Engine} (h : e.Inv) : e.buffered.length = e.bufcnt.toNat := by
  have h2 := congrArg List.length h.2.1
  simpa [Engine.buffered] using h2

theorem bufcnt_lt (e : Engine) : e.bufcnt.toNat < 64 := e.bufcnt.isLt

/-- A buffer that holds the bytes `s`, and the occupancy they give, meets the buffer's part of the invariant. -/
theorem inv_of_cells {e : Engine} {s : List Byte} (hs : s.length < 64) (hbuf : e.buf = cellsFrom 0 s)
    (hcnt : e.bufcnt = BitVec.ofNat 6 s.length) (hlen : e.len.toNat % 64 = 0) (herr : e.err = false ↔ e.errcode = 0)
    (hcode : e.errcode.toNat ≤ 3) : e.Inv := by
  refine ⟨?_, ?_, hlen, herr, hcode⟩
  · rw [hbuf]
    exact risingFrom_cellsFrom (by omega)
  · rw [hbuf, cellsFrom_fst, hcnt, List.range_eq_range', BitVec.toNat_ofNat, Nat.mod_eq_of_lt (by omega)]

/-- MemRead of the valid bytes never fails (R66, U1). -/
theorem memRead_buffered {e : Engine} (h : e.Inv) : memRead e.buf 0 e.bufcnt.toNat = .ok e.buffered := by
  have hlt := bufcnt_lt e
  unfold memRead
  rw [if_pos (by omega), buf_eq h, ← buffered_length h]
  exact loadBytes_cellsFrom 0 _

/-- MemWrite after the valid bytes appends to them (R120). -/
theorem memWrite_append {e : Engine} (h : e.Inv) {s : List Byte} (hs : e.bufcnt.toNat + s.length ≤ 64) :
    memWrite e.buf e.bufcnt.toNat s = .ok (cellsFrom 0 (e.buffered ++ s)) := by
  unfold memWrite
  rw [if_pos hs]
  congr 1
  rw [buf_eq h, ← buffered_length h]
  simpa using storeBytes_cellsFrom 0 e.buffered s

/-- MemRead of a full buffer (R120). -/
theorem memRead_full {s : List Byte} (hs : s.length = 64) : memRead (cellsFrom 0 s) 0 64 = .ok s := by
  unfold memRead
  rw [if_pos (by omega), ← hs]
  exact loadBytes_cellsFrom 0 s

/-- One block more: 64 bytes more in LEN (R34). -/
theorem add_block_bytes (x : BitVec 64) (k : Nat) :
    x + 64 + BitVec.ofNat 64 (64 * k) = x + BitVec.ofNat 64 (64 * (k + 1)) := by
  have h64 : (64 : BitVec 64).toNat = 64 := rfl
  apply BitVec.eq_of_toNat_eq
  simp only [BitVec.toNat_add, BitVec.toNat_ofNat, h64]
  omega

/-- Step 2 of ABSORB: k blocks compressed in order, LEN grown by 64 for each (R34, R121). -/
theorem absorbBlocks_eq (k : Nat) (e : Engine) (p : List Byte) :
    Engine.absorbBlocks k e p =
      { e with h := compressBlocks k e.h p, len := e.len + BitVec.ofNat 64 (64 * k) } := by
  induction k generalizing e p with
  | zero =>
    cases e
    simp [Engine.absorbBlocks, compressBlocks]
  | succ k ih =>
    simp only [Engine.absorbBlocks, ih, compressBlocks, compressBlock_h, compressBlock_len, compressBlock_buf,
      compressBlock_bufcnt, compressBlock_phase, compressBlock_err, compressBlock_errcode]
    rw [add_block_bytes]

/-- Compressing blocks of a longer list: only the blocks' bytes matter. -/
theorem compressBlocks_append (k : Nat) (h : HashState) (m t : List Byte) (hm : 64 * k ≤ m.length) :
    compressBlocks k h (m ++ t) = compressBlocks k h m := by
  induction k generalizing h m with
  | zero => rfl
  | succ k ih =>
    simp only [compressBlocks]
    rw [List.take_append_of_le_length (by omega), List.drop_append_of_le_length (by omega), ih]
    simp only [List.length_drop]
    omega

theorem compressBlocks_add (j k : Nat) (h : HashState) (m : List Byte) :
    compressBlocks (j + k) h m = compressBlocks k (compressBlocks j h m) (m.drop (64 * j)) := by
  induction j generalizing h m with
  | zero => simp [compressBlocks]
  | succ j ih =>
    rw [Nat.succ_add]
    simp only [compressBlocks, ih, List.drop_drop]
    congr 2
    omega

/-- The engine that holds the tail of a message after its whole blocks have been compressed: what ABSORB leaves, from an
engine whose buffered bytes and payload are together `m` (R119 to R122). -/
def absorbed (e : Engine) (m : List Byte) : Engine :=
  { e with
    h := compressBlocks (m.length / 64) e.h m
    len := e.len + BitVec.ofNat 64 (64 * (m.length / 64))
    buf := cellsFrom 0 (m.drop (64 * (m.length / 64)))
    bufcnt := BitVec.ofNat 6 (m.length % 64) }

theorem tail_length (m : List Byte) : (m.drop (64 * (m.length / 64))).length = m.length % 64 := by
  rw [List.length_drop]
  omega

/-- Steps 2 and 3, from an empty buffer. -/
theorem absorbAligned_eq (e : Engine) (p : List Byte) (hbuf : e.buf = []) :
    e.absorbAligned p = .ok (absorbed e p) := by
  have ht := tail_length p
  have hlt : p.length % 64 < 64 := Nat.mod_lt _ (by omega)
  unfold Engine.absorbAligned memWrite
  simp only [absorbBlocks_eq, hbuf, ht]
  rw [if_pos (by omega)]
  simp only [storeBytes_nil, Engine.setOccupancy, absorbed]
  rw [keepBelow_cellsFrom (by omega)]

/-- What ABSORB does to a good engine in phase ACTIVE (R119 to R122): the blocks of the buffered bytes and the payload
together are compressed, and the tail is kept. -/
theorem absorb_eq {e : Engine} (h : e.Inv) (p : List Byte) : e.absorb p = .ok (absorbed e (e.buffered ++ p)) := by
  have hl := buffered_length h
  have hlt := bufcnt_lt e
  unfold Engine.absorb
  split
  · rename_i h0
    have hb : e.buffered = [] := by
      apply List.eq_nil_of_length_eq_zero
      rw [hl, h0]
      rfl
    have hbuf : e.buf = [] := by rw [buf_eq h, hb]; rfl
    rw [absorbAligned_eq e p hbuf, hb, List.nil_append]
  · have htake : (p.take (min (64 - e.bufcnt.toNat) p.length)).length = min (64 - e.bufcnt.toNat) p.length := by
      rw [List.length_take]; omega
    dsimp only
    rw [memWrite_append h (by omega)]
    dsimp only
    split
    · rename_i hshort
      have hall : p.take (min (64 - e.bufcnt.toNat) p.length) = p := List.take_of_length_le (by omega)
      have hm : (e.buffered ++ p).length = e.bufcnt.toNat + p.length := by simp [hl]
      have hdiv : (e.buffered ++ p).length / 64 = 0 := by omega
      have hmod : (e.buffered ++ p).length % 64 = e.bufcnt.toNat + min (64 - e.bufcnt.toNat) p.length := by omega
      rw [hall]
      simp only [absorbed, hdiv, hmod, compressBlocks, Engine.setOccupancy]
      rw [keepBelow_cellsFrom (by omega)]
      simp
    · rename_i hfull
      have hmin : min (64 - e.bufcnt.toNat) p.length = 64 - e.bufcnt.toNat := by omega
      have hsplit : e.buffered ++ p =
          (e.buffered ++ p.take (64 - e.bufcnt.toNat)) ++ p.drop (64 - e.bufcnt.toNat) := by
        rw [List.append_assoc, List.take_append_drop]
      have hfirst : (e.buffered ++ p.take (64 - e.bufcnt.toNat)).length = 64 := by
        rw [List.length_append, hl, List.length_take]; omega
      rw [hmin, memRead_full hfirst]
      dsimp only
      rw [absorbAligned_eq _ _ (by simp)]
      have htake64 : (e.buffered ++ p).take 64 = e.buffered ++ p.take (64 - e.bufcnt.toNat) := by
        rw [hsplit, List.take_append_of_le_length (by omega), List.take_of_length_le (by omega)]
      have hdrop64 : (e.buffered ++ p).drop 64 = p.drop (64 - e.bufcnt.toNat) := by
        rw [hsplit, List.drop_append_of_le_length (by omega), List.drop_of_length_le (by omega), List.nil_append]
      have hlen : (e.buffered ++ p).length = 64 + (p.drop (64 - e.bufcnt.toNat)).length := by
        rw [hsplit, List.length_append, hfirst]
      have hd : (e.buffered ++ p).length / 64 = (p.drop (64 - e.bufcnt.toNat)).length / 64 + 1 := by omega
      have hm : (e.buffered ++ p).length % 64 = (p.drop (64 - e.bufcnt.toNat)).length % 64 := by omega
      simp only [absorbed, hd, hm, compressBlocks, setOccupancy_h, setOccupancy_len, setOccupancy_phase,
        setOccupancy_err, setOccupancy_errcode, compressBlock_h, compressBlock_len, compressBlock_phase,
        compressBlock_err, compressBlock_errcode]
      rw [htake64, hdrop64]
      have hdd : (e.buffered ++ p).drop (64 * ((p.drop (64 - e.bufcnt.toNat)).length / 64 + 1)) =
          (p.drop (64 - e.bufcnt.toNat)).drop (64 * ((p.drop (64 - e.bufcnt.toNat)).length / 64)) := by
        rw [← hdrop64, List.drop_drop]
        congr 1
        simp only [List.length_drop]
        omega
      rw [hdd]
      rw [add_block_bytes]

/-- What ABSORB leaves keeps the invariant (R132). -/
theorem absorbed_inv {e : Engine} (h : e.Inv) (m : List Byte) : (absorbed e m).Inv := by
  have ht := tail_length m
  have hlt : m.length % 64 < 64 := Nat.mod_lt _ (by omega)
  refine inv_of_cells (s := m.drop (64 * (m.length / 64))) (by omega) rfl (by rw [ht]; rfl) ?_ h.2.2.2.1 h.2.2.2.2
  have := h.2.2.1
  simp only [absorbed, BitVec.toNat_add, BitVec.toNat_ofNat]
  omega

/-- The bytes buffered after ABSORB (R122). -/
theorem absorbed_buffered (e : Engine) (m : List Byte) :
    (absorbed e m).buffered = m.drop (64 * (m.length / 64)) := by
  simp [Engine.buffered, absorbed]

/-- FINALIZE of a good engine does not fail (R210), and what it leaves (R123, R131). -/
theorem finalize_eq {e : Engine} (h : e.Inv) :
    e.finalize = .ok { e with h := padAndCompress e.h e.buffered e.bitLength, phase := .consumed } := by
  unfold Engine.finalize
  rw [memRead_buffered h]

/-- INIT keeps the invariant. -/
theorem init_inv {e : Engine} (h : e.Inv) : e.init.Inv :=
  inv_of_cells (s := []) (by simp) (by simp [cellsFrom]) rfl rfl h.2.2.2.1 h.2.2.2.2

/-- Recording an error keeps the invariant (R42). -/
theorem recordError_inv {e : Engine} (h : e.Inv) (code : CmdErrorCode) : (e.recordError code).Inv := by
  obtain ⟨h1, h2, h3, h4, h5⟩ := h
  unfold Engine.recordError
  split
  · exact ⟨h1, h2, h3, h4, h5⟩
  · exact ⟨h1, h2, h3, by cases code <;> simp [CmdErrorCode.value], by cases code <;> simp [CmdErrorCode.value]⟩

/-- The reset engine meets the invariant. -/
theorem reset_inv : Engine.reset.Inv := by decide

end Sys2Proof.Laws
end

