-- ==== Sys2Proof/Laws/PerInstr.lean ====
section
/-! SUPPORT. Statements made per instruction. Family TableRow: the word of an instruction has the fixed bits of its row
of spec/opcode_table.json. -/

namespace Sys2Proof.Laws.TableRow

/-- A command word with the operation bits `row` under `mask`, as the table's "match" and "mask" give them. -/
def CommandRow (mask row : BitVec 32) (c : Code) : Prop := ∃ w, c = .cmd w ∧ w &&& mask = row

/-- A micro-op word with the fixed bits `row` under `mask`. -/
def MicroOpRow (mask row : BitVec 16) (c : Code) : Prop := ∃ w, c = .uop w ∧ w &&& mask = row

/-- The word of `i` has the fixed bits of its row of the opcode table. -/
def Statement (i : Instr) : Prop :=
  match i with
  | .init => CommandRow 0xFFFFFFFF 0x10000000 (encode i)
  | .absorb _ => CommandRow 0xF0000000 0x20000000 (encode i)
  | .finalize => CommandRow 0xFFFFFFFF 0x30000000 (encode i)
  | .illegalInitArg _ => CommandRow 0xF0000000 0x10000000 (encode i)
  | .illegalFinalizeArg _ => CommandRow 0xF0000000 0x30000000 (encode i)
  | .illegalOp0 _ => CommandRow 0xF0000000 0x00000000 (encode i)
  | .illegalOp4to7 _ _ => CommandRow 0xC0000000 0x40000000 (encode i)
  | .illegalOp8toF _ _ => CommandRow 0x80000000 0x80000000 (encode i)
  | .aluAdd => MicroOpRow 0xFFFF 0x0000 (encode i)
  | .aluXor => MicroOpRow 0xFFFF 0x1000 (encode i)
  | .aluAnd => MicroOpRow 0xFFFF 0x2000 (encode i)
  | .aluNot => MicroOpRow 0xFFFF 0x3000 (encode i)
  | .aluRotr _ => MicroOpRow 0xFFE0 0x4000 (encode i)
  | .aluShr _ => MicroOpRow 0xFFE0 0x5000 (encode i)
  | .aluBsig0 => MicroOpRow 0xFFFF 0x6000 (encode i)
  | .aluBsig1 => MicroOpRow 0xFFFF 0x7000 (encode i)
  | .aluSsig0 => MicroOpRow 0xFFFF 0x8000 (encode i)
  | .aluSsig1 => MicroOpRow 0xFFFF 0x9000 (encode i)
  | .aluCh => MicroOpRow 0xFFFF 0xA000 (encode i)
  | .aluMaj => MicroOpRow 0xFFFF 0xB000 (encode i)
  | .aluReserved _ _ => MicroOpRow 0xC000 0xC000 (encode i)

/-- Masking the operation bits of a command word leaves its operation code. -/
theorem commandWord_mask (m op : BitVec 4) (arg : BitVec 28) :
    commandWord op arg &&& (m ++ 0#28) = (op &&& m) ++ 0#28 := by
  unfold commandWord
  exact BitVec.and_append.trans (by simp)

theorem absorb (arg : BitVec 28) : Statement (.absorb arg) := ⟨_, rfl, commandWord_mask 0xF 0x2 arg⟩
theorem illegalInitArg (arg : BitVec 28) : Statement (.illegalInitArg arg) := ⟨_, rfl, commandWord_mask 0xF 0x1 arg⟩
theorem illegalFinalizeArg (arg : BitVec 28) : Statement (.illegalFinalizeArg arg) :=
  ⟨_, rfl, commandWord_mask 0xF 0x3 arg⟩
theorem illegalOp0 (arg : BitVec 28) : Statement (.illegalOp0 arg) := ⟨_, rfl, commandWord_mask 0xF 0x0 arg⟩
theorem illegalOp4to7 (low : BitVec 2) (arg : BitVec 28) : Statement (.illegalOp4to7 low arg) :=
  ⟨_, rfl, by
    have h : ∀ low : BitVec 2, ((0b01#2 ++ low) &&& 0xC#4) ++ 0#28 = (0x40000000#32) := by decide
    exact (commandWord_mask 0xC _ arg).trans (h low)⟩
theorem illegalOp8toF (low : BitVec 3) (arg : BitVec 28) : Statement (.illegalOp8toF low arg) :=
  ⟨_, rfl, by
    have h : ∀ low : BitVec 3, ((0b1#1 ++ low) &&& 0x8#4) ++ 0#28 = (0x80000000#32) := by decide
    exact (commandWord_mask 0x8 _ arg).trans (h low)⟩
theorem init : Statement .init := ⟨_, rfl, by decide⟩
theorem finalize : Statement .finalize := ⟨_, rfl, by decide⟩
theorem aluAdd : Statement .aluAdd := ⟨_, rfl, by decide⟩
theorem aluXor : Statement .aluXor := ⟨_, rfl, by decide⟩
theorem aluAnd : Statement .aluAnd := ⟨_, rfl, by decide⟩
theorem aluNot : Statement .aluNot := ⟨_, rfl, by decide⟩
theorem aluRotr (shamt : BitVec 5) : Statement (.aluRotr shamt) := ⟨_, rfl, by revert shamt; decide⟩
theorem aluShr (shamt : BitVec 5) : Statement (.aluShr shamt) := ⟨_, rfl, by revert shamt; decide⟩
theorem aluBsig0 : Statement .aluBsig0 := ⟨_, rfl, by decide⟩
theorem aluBsig1 : Statement .aluBsig1 := ⟨_, rfl, by decide⟩
theorem aluSsig0 : Statement .aluSsig0 := ⟨_, rfl, by decide⟩
theorem aluSsig1 : Statement .aluSsig1 := ⟨_, rfl, by decide⟩
theorem aluCh : Statement .aluCh := ⟨_, rfl, by decide⟩
theorem aluMaj : Statement .aluMaj := ⟨_, rfl, by decide⟩
theorem aluReserved (low : BitVec 2) (rest : BitVec 12) : Statement (.aluReserved low rest) :=
  ⟨_, rfl, by
    have h : ∀ low : BitVec 2, ((0b11#2 ++ low) &&& 0xC#4) ++ 0#12 = (0xC000#16) := by decide
    have h' : (0b11#2 ++ low ++ rest) &&& (0xC#4 ++ 0#12) = ((0b11#2 ++ low) &&& 0xC#4) ++ 0#12 :=
      BitVec.and_append.trans (by simp)
    exact h'.trans (h low)⟩

end Sys2Proof.Laws.TableRow
end

