-- ==== Sys2Proof/Laws/Step.lean ====
section
/-! SUPPORT. What the shared operations of a command and a step can do, said once: a proof cites these and unfolds
neither. -/

namespace Sys2Proof.Laws

open Sys2Proof.Machine

/-- n = ARG, as a number (R92). -/
@[simp] theorem payloadLength_eq (arg : BitVec 28) : payloadLength arg = arg.toNat := by
  unfold payloadLength
  rw [BitVec.toNat_setWidth, Nat.mod_eq_of_lt]
  exact Nat.lt_trans arg.isLt (by decide)

/-- ABSORB writes neither PHASE nor ERR nor ERRCODE (R119). -/
theorem absorbBlocks_keeps (k : Nat) (e : Engine) (p : List Byte) :
    (Engine.absorbBlocks k e p).phase = e.phase ∧ (Engine.absorbBlocks k e p).err = e.err ∧
      (Engine.absorbBlocks k e p).errcode = e.errcode := by
  rw [absorbBlocks_eq]
  exact ⟨rfl, rfl, rfl⟩

theorem absorbAligned_keeps {e e' : Engine} {p : List Byte} (h : e.absorbAligned p = .ok e') :
    e'.phase = e.phase ∧ e'.err = e.err ∧ e'.errcode = e.errcode := by
  unfold Engine.absorbAligned at h
  dsimp only at h
  split at h
  · cases h
  · cases h
    exact absorbBlocks_keeps _ e p

theorem absorb_keeps {e e' : Engine} {p : List Byte} (h : e.absorb p = .ok e') :
    e'.phase = e.phase ∧ e'.err = e.err ∧ e'.errcode = e.errcode := by
  unfold Engine.absorb at h
  split at h
  · exact absorbAligned_keeps h
  · dsimp only at h
    split at h
    · cases h
    · split at h
      · cases h
        exact ⟨rfl, rfl, rfl⟩
      · split at h
        · cases h
        · simpa using absorbAligned_keeps h

/-- FINALIZE writes H and PHASE among the STATUS fields and H (R123). -/
theorem finalize_keeps {e e' : Engine} (h : e.finalize = .ok e') :
    e'.phase = .consumed ∧ e'.err = e.err ∧ e'.errcode = e.errcode := by
  unfold Engine.finalize at h
  split at h
  · cases h
  · cases h
    exact ⟨rfl, rfl, rfl⟩

/-- FINALIZE leaves LEN, BUFCNT and BUF (R131, log entry 8). -/
theorem finalize_leaves_buffer {e e' : Engine} (h : e.finalize = .ok e') :
    e'.len = e.len ∧ e'.bufcnt = e.bufcnt ∧ e'.buf = e.buf := by
  unfold Engine.finalize at h
  split at h
  · cases h
  · cases h
    exact ⟨rfl, rfl, rfl⟩

/-- An ABSORB with its payload: the error of R214, or the absorb of R119. -/
theorem absorbPayload_cases {p : List Byte} {s t : State} (h : absorbPayload p s = .next t) :
    (s.engine.phase = .consumed ∧ t = s.raise .useAfterFinalize) ∨
      (s.engine.phase = .active ∧ ∃ e, s.engine.absorb p = .ok e ∧ t = s.complete e) := by
  unfold absorbPayload at h
  split at h
  · cases h
    exact .inl ⟨‹_›, rfl⟩
  · rename_i hp
    right
    refine ⟨by cases hq : s.engine.phase <;> simp_all, ?_⟩
    split at h
    · cases h
      exact ⟨_, ‹_›, rfl⟩
    · cases h

/-- An ABSORB, from its acceptance or in flight: it waits for more payload (R247), or has it all. -/
theorem absorbFrom_cases {arg : BitVec 28} {got : List Byte} {s t : State} (h : absorbFrom arg got s = .next t) :
    ((payloadTaken arg got s).length < payloadLength arg ∧
        t = (acceptPayload arg got s).wait (.absorb arg (payloadTaken arg got s))) ∨
      absorbPayload (payloadTaken arg got s) (acceptPayload arg got s) = .next t := by
  unfold absorbFrom at h
  split at h
  · cases h
    exact .inl ⟨‹_›, rfl⟩
  · exact .inr h

/-- A FINALIZE: the error of R214, or it completes with a response (R123), or it waits for its host (R249). -/
theorem execFinalize_cases {s t : State} (h : execFinalize s = .next t) :
    (s.engine.phase = .consumed ∧ t = s.raise .useAfterFinalize) ∨
      (s.engine.phase = .active ∧ ∃ e, s.engine.finalize = .ok e ∧
        ((s.rspReady = true ∧ t = (s.respond (digestBytes e.h)).complete e) ∨
          (s.rspReady = false ∧ t = s.wait .finalize))) := by
  unfold execFinalize at h
  split at h
  · cases h
    exact .inl ⟨‹_›, rfl⟩
  · rename_i hp
    right
    refine ⟨by cases hq : s.engine.phase <;> simp_all, ?_⟩
    split at h
    · cases h
    · rename_i e he
      refine ⟨e, he, ?_⟩
      split at h
      · cases h
        exact .inl ⟨‹_›, rfl⟩
      · cases h
        exact .inr ⟨by simp_all, rfl⟩

/-- What an instruction can do when it answers a next state. -/
theorem exec_cases {i : Instr} {s t : State} (h : exec i s = .next t) :
    (i = .init ∧ t = s.complete s.engine.init) ∨
      (∃ arg, i = .absorb arg ∧ absorbFrom arg [] s = .next t) ∨
      (i = .finalize ∧ execFinalize s = .next t) ∨
      ((∃ c, encode i = .cmd c) ∧ i ≠ .init ∧ (∀ arg, i ≠ .absorb arg) ∧ i ≠ .finalize ∧
        ∃ code, t = s.raise code) ∨
      ((∃ w, encode i = .uop w) ∧ ∃ y, t = s.setY y) := by
  cases i
  case init => cases h; exact .inl ⟨rfl, rfl⟩
  case absorb arg => exact .inr (.inl ⟨arg, rfl, h⟩)
  case finalize => exact .inr (.inr (.inl ⟨rfl, h⟩))
  case aluReserved => cases h
  all_goals
    cases h
    first
      | exact .inr (.inr (.inr (.inl ⟨⟨_, rfl⟩, by simp, by simp, by simp, _, rfl⟩)))
      | exact .inr (.inr (.inr (.inr ⟨⟨_, rfl⟩, _, rfl⟩)))

/-- A command word is its two fields (R90). -/
theorem opField_append_argField (w : BitVec 32) : opField w ++ argField w = w := by
  unfold opField argField
  rw [BitVec.extractLsb'_append_extractLsb'_eq_extractLsb' (by decide)]
  simp

/-- Only the word 0x30000000 decodes to FINALIZE (R91, R93). -/
theorem decodeCmd_finalize {w : BitVec 32} (h : decodeCmd w = .finalize) : w = 0x30000000 := by
  rw [← opField_append_argField w]
  unfold decodeCmd at h
  repeat' split at h
  all_goals first | (cases h; done) | simp_all

/-- A command word decodes to an instruction of the command channel. -/
theorem decodeCmd_not_uop (c : BitVec 32) (w : BitVec 16) : encode (decodeCmd c) ≠ .uop w := by
  unfold decodeCmd
  repeat' split
  all_goals simp [encode]

theorem withoutShamt_ok {sh : BitVec 5} {i j : Instr} (h : some (withoutShamt sh j) = some (.ok i)) : i = j := by
  unfold withoutShamt at h
  split at h
  · cases h; rfl
  · cases h

/-- A function code names an instruction of the ALU. -/
theorem aluFunction_encode {fn : BitVec 4} {sh : BitVec 5} {i : Instr} (h : aluFunction fn sh = some (.ok i)) :
    ∃ w, encode i = .uop w := by
  unfold aluFunction at h
  by_cases h0 : fn = 0
  · rw [if_pos h0] at h
    exact ⟨_, by rw [withoutShamt_ok h]; rfl⟩
  rw [if_neg h0] at h
  by_cases h1 : fn = 1
  · rw [if_pos h1] at h
    exact ⟨_, by rw [withoutShamt_ok h]; rfl⟩
  rw [if_neg h1] at h
  by_cases h2 : fn = 2
  · rw [if_pos h2] at h
    exact ⟨_, by rw [withoutShamt_ok h]; rfl⟩
  rw [if_neg h2] at h
  by_cases h3 : fn = 3
  · rw [if_pos h3] at h
    exact ⟨_, by rw [withoutShamt_ok h]; rfl⟩
  rw [if_neg h3] at h
  by_cases h4 : fn = 4
  · rw [if_pos h4] at h
    cases h
    exact ⟨_, rfl⟩
  rw [if_neg h4] at h
  by_cases h5 : fn = 5
  · rw [if_pos h5] at h
    cases h
    exact ⟨_, rfl⟩
  rw [if_neg h5] at h
  by_cases h6 : fn = 6
  · rw [if_pos h6] at h
    exact ⟨_, by rw [withoutShamt_ok h]; rfl⟩
  rw [if_neg h6] at h
  by_cases h7 : fn = 7
  · rw [if_pos h7] at h
    exact ⟨_, by rw [withoutShamt_ok h]; rfl⟩
  rw [if_neg h7] at h
  by_cases h8 : fn = 8
  · rw [if_pos h8] at h
    exact ⟨_, by rw [withoutShamt_ok h]; rfl⟩
  rw [if_neg h8] at h
  by_cases h9 : fn = 9
  · rw [if_pos h9] at h
    exact ⟨_, by rw [withoutShamt_ok h]; rfl⟩
  rw [if_neg h9] at h
  by_cases h10 : fn = 10
  · rw [if_pos h10] at h
    exact ⟨_, by rw [withoutShamt_ok h]; rfl⟩
  rw [if_neg h10] at h
  by_cases h11 : fn = 11
  · rw [if_pos h11] at h
    exact ⟨_, by rw [withoutShamt_ok h]; rfl⟩
  rw [if_neg h11] at h
  cases h

/-- A micro-op word decodes to an instruction of the ALU. -/
theorem decodeUop_encode {w : BitVec 16} {i : Instr} (h : decodeUop w = .ok i) : ∃ w', encode i = .uop w' := by
  unfold decodeUop at h
  split at h
  · cases h
    exact ⟨_, rfl⟩
  · rename_i r hr
    split at h
    · subst h
      exact aluFunction_encode hr
    · cases h

/-- What a step can do when it answers a next state: the reset, a micro-op's result, a command going on, a command
accepted, or nothing. -/
theorem step_cases {s t : State} (h : step s = .next t) :
    (s.rst = true ∧ t = s.hardwareReset) ∨
      (s.rst = false ∧
        ((∃ w y, s.alu.uop = some w ∧ t = s.takeMicroOp.setY y) ∨
          (s.alu.uop = none ∧
            ((∃ f, s.inflight = some f ∧ resume f s = .next t) ∨
              (s.inflight = none ∧
                ((∃ w rest, s.cmd = w :: rest ∧ exec (decodeCmd w) s.takeCommand = .next t) ∨
                  (s.cmd = [] ∧ t = s))))))) := by
  unfold step State.nextEvent at h
  by_cases hr : s.rst = true
  · rw [if_pos hr] at h
    cases h
    exact .inl ⟨hr, rfl⟩
  · rw [if_neg hr] at h
    refine .inr ⟨by simpa using hr, ?_⟩
    cases hu : s.alu.uop with
    | some w =>
      rw [hu] at h
      dsimp only at h
      left
      split at h
      · rename_i i hi
        obtain ⟨w', hw'⟩ := decodeUop_encode hi
        rcases exec_cases h with ⟨rfl, _⟩ | ⟨_, rfl, _⟩ | ⟨rfl, _⟩ | ⟨⟨c, hc⟩, _⟩ | ⟨_, y, rfl⟩
        · simp [encode] at hw'
        · simp [encode] at hw'
        · simp [encode] at hw'
        · rw [hc] at hw'; cases hw'
        · exact ⟨w, y, rfl, rfl⟩
      · cases h
    | none =>
      rw [hu] at h
      dsimp only at h
      refine .inr ⟨rfl, ?_⟩
      cases hf : s.inflight with
      | some f =>
        rw [hf] at h
        exact .inl ⟨f, rfl, h⟩
      | none =>
        rw [hf] at h
        dsimp only at h
        refine .inr ⟨rfl, ?_⟩
        cases hc : s.cmd with
        | nil =>
          rw [hc] at h
          cases h
          exact .inr ⟨rfl, rfl⟩
        | cons w rest =>
          rw [hc] at h
          exact .inl ⟨w, rest, rfl, h⟩

/-- A step of a ready engine with a command word offered. -/
theorem step_command {s : State} {w : BitVec 32} {rest : List (BitVec 32)} (hs : s.Ready) (hc : s.cmd = w :: rest) :
    step s = exec (decodeCmd w) { s with cmd := rest } := by
  obtain ⟨h1, h2, h3⟩ := hs
  unfold step State.nextEvent State.takeCommand
  simp [h1, h2, h3, hc]

/-- A step of a machine with a micro-op issued. -/
theorem step_microOp {s : State} {w : BitVec 16} (h1 : s.rst = false) (h2 : s.alu.uop = some w) :
    step s = match decodeUop w with
      | .ok i => exec i { s with alu := { s.alu with uop := none } }
      | .error why => .refused (.malformedMicroOp why) := by
  cases hd : decodeUop w <;> simp [step, State.nextEvent, State.takeMicroOp, h1, h2, hd]

/-- A step of an engine with a command in flight. -/
theorem step_resume {s : State} {f : InFlight} (h1 : s.rst = false) (h2 : s.alu.uop = none)
    (h3 : s.inflight = some f) : step s = resume f s := by
  unfold step State.nextEvent
  simp [h1, h2, h3]

end Sys2Proof.Laws
end

