-- ==== Sys2Proof/Tests/Slice0.lean ====
section
/-! SUPPORT. This row's own tests: ill-formed terms, words written out from the spec's encodings, one step of each
instruction against the vectors of 95_test_vectors.md and the examples of the rules, and a witness for the hypotheses of
every statement. Expected values come from the spec. -/

set_option maxRecDepth 100000

namespace Sys2Proof.Tests

open Sys2Proof.Machine

/-! ## Helpers -/

/-- The next state of an outcome, if it is one. -/
def nextOf : Host.Outcome State Fault Refusal → Option State
  | .next s => some s
  | .fault _ => none
  | .refused _ => none

/-- One step with the command word `w` at the head of the channel. -/
def stepWord (s : State) (w : Nat) : Option State := nextOf (step (s.withFetchWord 32 w))

/-- What one micro-op leaves on Y. -/
def yOf (a b c : Word) (w : Nat) : Option Word :=
  (nextOf (step (State.withFetchWord { State.reset with alu := { uop := none, a := a, b := b, c := c, y := 0 } } 16 w))).map
    fun s => s.alu.y

/-- A reset machine with the bytes `bs` in its buffer. -/
def holding (bs : List Byte) : State :=
  { State.reset with
    engine := { Engine.reset with
      buf := (List.range bs.length).zip bs
      bufcnt := BitVec.ofNat 6 bs.length } }

/-- A machine in phase CONSUMED. -/
def spent : State := { State.reset with engine := { Engine.reset with phase := .consumed } }

/-- The bytes of "abc". -/
def abc : List Byte := [0x61, 0x62, 0x63]

/-! ## Well-formedness -/

theorem test_init_with_arg_0_is_ill_formed : (Instr.illegalInitArg 0).wellFormed = false := by decide
theorem test_finalize_with_arg_0_is_ill_formed : (Instr.illegalFinalizeArg 0).wellFormed = false := by decide
theorem test_init_with_arg_1_is_well_formed : (Instr.illegalInitArg 1).wellFormed = true := by decide
theorem test_finalize_with_arg_1_is_well_formed : (Instr.illegalFinalizeArg 1).wellFormed = true := by decide

/-! ## Decoding: words written out from R90, R91 (OP then ARG) and R98, R99 (FN, seven zeros, SHAMT), and V50 -/

theorem test_decode_init : decode (.cmd 0b0001_0000000000000000000000000000) = .ok .init := by decide
theorem test_decode_absorb : decode (.cmd 0b0010_0000000000000000000000111000) = .ok (.absorb 56) := by decide
theorem test_decode_finalize : decode (.cmd 0b0011_0000000000000000000000000000) = .ok .finalize := by decide
theorem test_decode_illegal_init :
    decode (.cmd 0b0001_1111111111111111111111111111) = .ok (.illegalInitArg 0xfffffff) := by decide
theorem test_decode_illegal_finalize :
    decode (.cmd 0b0011_0000000000000000000001000000) = .ok (.illegalFinalizeArg 64) := by decide
theorem test_decode_illegal_0 : decode (.cmd 0b0000_0000000000000000000000000011) = .ok (.illegalOp0 3) := by decide
theorem test_decode_illegal_4 : decode (.cmd 0b0100_0000000000000000000000000000) = .ok (.illegalOp4to7 0 0) := by decide
theorem test_decode_illegal_7 : decode (.cmd 0b0111_0000000000000000000000000001) = .ok (.illegalOp4to7 3 1) := by decide
theorem test_decode_illegal_8 : decode (.cmd 0b1000_0000000000000000000000000011) = .ok (.illegalOp8toF 0 3) := by decide
theorem test_decode_illegal_f :
    decode (.cmd 0b1111_1111111111111111111111111111) = .ok (.illegalOp8toF 7 0xfffffff) := by decide
theorem test_decode_add : decode (.uop 0b0000_0000000_00000) = .ok .aluAdd := by decide
theorem test_decode_xor : decode (.uop 0b0001_0000000_00000) = .ok .aluXor := by decide
theorem test_decode_and : decode (.uop 0b0010_0000000_00000) = .ok .aluAnd := by decide
theorem test_decode_not : decode (.uop 0b0011_0000000_00000) = .ok .aluNot := by decide
theorem test_decode_rotr : decode (.uop 0b0100_0000000_10001) = .ok (.aluRotr 17) := by decide
theorem test_decode_shr : decode (.uop 0b0101_0000000_01010) = .ok (.aluShr 10) := by decide
theorem test_decode_bsig0 : decode (.uop 0b0110_0000000_00000) = .ok .aluBsig0 := by decide
theorem test_decode_bsig1 : decode (.uop 0b0111_0000000_00000) = .ok .aluBsig1 := by decide
theorem test_decode_ssig0 : decode (.uop 0b1000_0000000_00000) = .ok .aluSsig0 := by decide
theorem test_decode_ssig1 : decode (.uop 0b1001_0000000_00000) = .ok .aluSsig1 := by decide
theorem test_decode_ch : decode (.uop 0b1010_0000000_00000) = .ok .aluCh := by decide
theorem test_decode_maj : decode (.uop 0b1011_0000000_00000) = .ok .aluMaj := by decide
theorem test_decode_reserved : decode (.uop 0b1101_0000000_00001) = .ok (.aluReserved 1 1) := by decide
theorem test_reject_reserved_bits : decode (.uop 0b0100_0000001_00001) = .error .aluReservedBits := by decide
theorem test_reject_shamt_of_add : decode (.uop 0b0000_0000000_00001) = .error .aluShamtNotTaken := by decide

/-! ## Micro-ops: the examples of R185 to R200 -/

theorem test_add : yOf 0x6a09e667 0xbb67ae85 0 0x0000 = some 0x257194ec := by decide
theorem test_xor : yOf 0x12345678 0xffffffff 0 0x1000 = some 0xedcba987 := by decide
theorem test_and : yOf 0x12345678 0x0f0f0f0f 0 0x2000 = some 0x02040608 := by decide
theorem test_not : yOf 0x12345678 0 0 0x3000 = some 0xedcba987 := by decide
theorem test_rotr_4 : yOf 0x12345678 0 0 0x4004 = some 0x81234567 := by decide
theorem test_rotr_31 : yOf 0x12345678 0 0 0x401f = some 0x2468acf0 := by decide
theorem test_shr_4 : yOf 0x12345678 0 0 0x5004 = some 0x01234567 := by decide
theorem test_shr_31 : yOf 0x80000000 0 0 0x501f = some 0x00000001 := by decide
theorem test_bsig0 : yOf 0x6a09e667 0 0 0x6000 = some 0xce20b47e := by decide
theorem test_bsig1 : yOf 0x510e527f 0 0 0x7000 = some 0x3587272b := by decide
theorem test_ssig0 : yOf 0x6a09e667 0 0 0x8000 = some 0xba0cf582 := by decide
theorem test_ssig1 : yOf 0x6a09e667 0 0 0x9000 = some 0xcfe5da3c := by decide
theorem test_ch : yOf 0x510e527f 0x9b05688c 0x1f83d9ab 0xa000 = some 0x1f85c98c := by decide
theorem test_maj : yOf 0x6a09e667 0xbb67ae85 0x3c6ef372 0xb000 = some 0x3a6fe667 := by decide
theorem test_reserved_function_is_refused :
    step (State.reset.withFetchWord 16 0xc000) = .refused .reservedAluFunction := rfl

/-! ## Commands -/

/-- V51: INIT discards a partial message. -/
theorem test_init_discards_the_partial_message :
    (stepWord (holding abc) 0x10000000).map State.engine = some Engine.reset := by decide

/-- V52: INIT in phase CONSUMED; STATUS = 0. -/
theorem test_init_in_consumed : (stepWord spent 0x10000000).map State.statusPort = some 0 := by decide

/-- V35: all three steps of ABSORB in one command. -/
theorem test_absorb_all_three_steps :
    (stepWord ((holding ((List.range 10).map (BitVec.ofNat 8))).offerData
      ((List.range 200).map fun j => BitVec.ofNat 8 (j + 10))) 0x200000c8).map State.engine =
    some { (holding ((List.range 18).map fun j => BitVec.ofNat 8 (j + 192))).engine with
      h := { h0 := 0x2bed68b9, h1 := 0x9987cae4, h2 := 0x8183b2b0, h3 := 0x49d393d0,
             h4 := 0x050868e4, h5 := 0xe8ba3730, h6 := 0xe9112b08, h7 := 0x765929b7 }
      len := 192 } := by decide

/-- V2 and V23: the digests of "abc" (one padding block) and of 56 bytes 0x61 (the first two-block case). -/
theorem test_finalize_one_and_two_blocks :
    (stepWord (holding abc) 0x30000000).map State.responses =
      some [0xba7816bf8f01cfea414140de5dae2223b00361a396177a9cb410ff61f20015ad] ∧
    (stepWord (holding (List.replicate 56 0x61)) 0x30000000).map State.responses =
      some [0xb35439a4ac6f0948b6d6f9e3c6af0f5f590ce20f1bde7090ef7970686ec6738a] := by decide

/-- V37: ABSORB in phase CONSUMED drains its payload; STATUS = 0x33. -/
theorem test_absorb_in_consumed :
    (stepWord (spent.offerData [0x64]) 0x20000001).map (fun s => (s.statusPort, s.din, s.responses)) =
    some (0x00000033, [], []) := by decide

/-- R215: FINALIZE in phase CONSUMED; no response. -/
theorem test_finalize_in_consumed :
    (stepWord spent 0x30000000).map (fun s => (s.statusPort, s.responses)) = some (0x00000033, []) := by decide

/-- V53: NONZERO_ARG comes before USE_AFTER_FINALIZE. -/
theorem test_illegal_finalize_in_consumed :
    (stepWord spent 0x30000001).map State.statusPort = some 0x00000023 := by decide

/-- V54: the first error is kept. -/
theorem test_illegal_init_keeps_the_first_error :
    ((stepWord State.reset 0x40000000).bind fun s => stepWord s 0x10000005).map State.statusPort =
    some 0x00000012 := by decide

/-- V55: an error writes no engine state. -/
theorem test_illegal_op0_writes_no_register :
    (stepWord (holding abc) 0x00000000).map State.engine =
    some { (holding abc).engine with err := true, errcode := 1 } := by decide

/-- V54: STATUS = 0x12 after 0x40000000. -/
theorem test_illegal_op4 : (stepWord State.reset 0x40000000).map State.statusPort = some 0x00000012 := by decide

/-- R94, R213: ARG is not examined, and no payload byte is taken. -/
theorem test_illegal_op8_takes_no_byte :
    (stepWord (State.reset.offerData [0x61]) 0x80000003).map (fun s => (s.statusPort, s.din)) =
    some (0x00000012, [0x61]) := by decide

/-- V56, R241: reset in the middle of an ABSORB. -/
theorem test_reset_mid_absorb :
    (stepWord ((holding abc).offerData [0x64]) 0x20000002).map (fun s => s.assertReset.releaseReset.engine) =
    some Engine.reset := by decide

/-! ## Compression: V10, V11, V13, and the allowed structures -/

/-- The block of V21. -/
def abcBlock : List Byte := abc ++ 0x80 :: List.replicate 59 0 ++ [0x18]

theorem test_schedule_of_abc :
    wordAt (schedule abcBlock) 17 = 0x000f0000 ∧ wordAt (schedule abcBlock) 63 = 0x12b1edeb := by decide
theorem test_round_3_of_abc :
    rounds 4 (schedule abcBlock) (seed iv) =
    { a := 0xd550f666, b := 0xc8c347a7, c := 0x5a6ad9ad, d := 0x5d6aebcd,
      e := 0x24e00850, f := 0xf92939eb, g := 0x78ce7989, h := 0xfa2a4622 } := by decide
theorem test_windowed_compression_of_abc : (compressWindowed iv abcBlock).h0 = 0xba7816bf := by decide
theorem test_in_place_compression_of_abc : (compressInPlace iv abcBlock).h7 = 0xf20015ad := by decide

/-! ## Scripts: R104, R105, R107, V50 -/

theorem test_disassemble : disassemble 0x20000038 = "ABSORB 56" ∧ disassemble 0x40000000 = ".illegal 0x40000000" := by
  decide
theorem test_parse_absorb :
    parseLine? "absorb 2 * 0x61 ++ x\"62\" ++ \"c\" ; text" = some (.absorb [0x61, 0x61, 0x62, 0x63]) := by decide
theorem test_assemble_digest :
    (ScriptLine.digest abc).requests =
    [{ word := 0x10000000, payload := [] }, { word := 0x20000003, payload := abc },
     { word := 0x30000000, payload := [] }] := by decide

/-! ## Witnesses: for each statement with hypotheses, one input that meets them, clause by clause at boundary values -/

theorem test_witness_DecodingAnEncodedInstructionGivesItBack : (Instr.illegalInitArg 1).wellFormed = true := by decide

theorem test_witness_EncodingADecodedWordGivesItBack :
    decode (.cmd 0xffffffff) = .ok (.illegalOp8toF 7 0xfffffff) ∧ decode (.uop 0x501f) = .ok (.aluShr 31) := by decide

/-- A word meets the hypotheses on OP and ARG that each clause of CommandWordsDecodeByOpAndArg makes. -/
theorem test_witness_CommandWordsDecodeByOpAndArg :
    let op (w : BitVec 32) := w.toNat / 2 ^ 28
    let arg (w : BitVec 32) := w.toNat % 2 ^ 28
    (op 0x10000000 = 1 ∧ arg 0x10000000 = 0) ∧ (op 0x10000001 = 1 ∧ arg 0x10000001 ≠ 0) ∧
    (op 0x1fffffff = 1 ∧ arg 0x1fffffff ≠ 0) ∧ op 0x2fffffff = 2 ∧
    (op 0x30000000 = 3 ∧ arg 0x30000000 = 0) ∧ (op 0x30000001 = 3 ∧ arg 0x30000001 ≠ 0) ∧
    op 0x0fffffff = 0 ∧ (4 ≤ op 0x40000000 ∧ op 0x40000000 < 8) ∧ (4 ≤ op 0x7fffffff ∧ op 0x7fffffff < 8) ∧
    8 ≤ op 0x80000000 ∧ 8 ≤ op 0xffffffff := by decide

/-- The three classes of reserved micro-op words, at the ends of their ranges, on a machine out of reset. -/
theorem test_witness_ReservedMicroOpsAreRefused :
    let fn (w : BitVec 16) := w.toNat / 2 ^ 12
    let mid (w : BitVec 16) := w.toNat / 2 ^ 5 % 2 ^ 7
    let sh (w : BitVec 16) := w.toNat % 2 ^ 5
    (State.reset.withMicroOp 0xc000).rst = false ∧ (State.reset.withMicroOp 0xc000).alu.uop = some 0xc000 ∧
    12 ≤ fn 0xc000 ∧ 12 ≤ fn 0xffff ∧ (fn 0x0020 < 12 ∧ mid 0x0020 ≠ 0) ∧ (fn 0xbfff < 12 ∧ mid 0xbfff ≠ 0) ∧
    (fn 0x0001 < 12 ∧ mid 0x0001 = 0 ∧ fn 0x0001 ≠ 4 ∧ fn 0x0001 ≠ 5 ∧ sh 0x0001 ≠ 0) ∧
    (fn 0xb01f < 12 ∧ mid 0xb01f = 0 ∧ fn 0xb01f ≠ 4 ∧ fn 0xb01f ≠ 5 ∧ sh 0xb01f ≠ 0) := by decide

/-- The bit ranges of the ALU statements are met at their ends (bits 0 and 31, amounts 1 and 31). -/
theorem test_witness_Alu_ranges :
    (0 : Nat) < 32 ∧ (31 : Nat) < 32 ∧ 1 ≤ (1 : BitVec 5).toNat ∧ 1 ≤ (31 : BitVec 5).toNat := by decide

theorem test_witness_MicroOpResultDependsOnOperandsAlone :
    decode (.uop 0x0000) = .ok .aluAdd ∧ (∃ t, exec .aluAdd State.reset = .next t) ∧
    (∃ t, exec .aluAdd spent = .next t) ∧ State.reset.alu.a = spent.alu.a ∧ State.reset.alu.b = spent.alu.b ∧
    State.reset.alu.c = spent.alu.c := ⟨by decide, ⟨_, rfl⟩, ⟨_, rfl⟩, rfl, rfl, rfl⟩

/-- Also of WindowedCompressionRefinesCompress; the rounds 0, 15, 16 and 63 are the ends of the two ranges. -/
theorem test_witness_ScheduleFollowsLoadAndExpansion :
    abcBlock.length = 64 ∧ (0 : Nat) < 16 ∧ (15 : Nat) < 16 ∧ 16 ≤ (16 : Nat) ∧ (63 : Nat) < 64 := by decide

/-- Each table of roots has an entry with a quotient in range: the first and the last. -/
theorem test_witness_roots :
    (romK 0).toNat = 0x428a2f98 ∧ (1 * 2 ^ 32 + 0x428a2f98) ^ 3 ≤ 2 * 2 ^ 96 ∧
    (romK 63).toNat = 0xc67178f2 ∧ (6 * 2 ^ 32 + 0xc67178f2) ^ 3 ≤ 311 * 2 ^ 96 := by decide

theorem test_witness_InitPutsTheEngineInTheInitialState : (1 : BitVec 28) ≠ 0 ∧ (0xfffffff : BitVec 28) ≠ 0 := by decide

/-- Payloads of 0 bytes, of 60 and 61 bytes (one short of a block, and a block) and with a byte left over. -/
theorem test_witness_AbsorbCompressesWholeBlocksAndKeepsTheTail :
    let s := (holding abc).offerData (List.replicate 62 0x78)
    s.engine.Inv ∧ s.engine.phase = .active ∧ (0 : BitVec 28).toNat ≤ s.din.length ∧
      (60 : BitVec 28).toNat ≤ s.din.length ∧ (61 : BitVec 28).toNat ≤ s.din.length := by decide

theorem test_witness_AbsorbTopsUpAPartialBuffer :
    let s := (holding abc).offerData (List.replicate 61 0x78)
    s.engine.Inv ∧ s.engine.phase = .active ∧ 0 < s.engine.bufcnt.toNat ∧
      ((60 : BitVec 28).toNat ≤ s.din.length ∧ s.engine.bufcnt.toNat + (60 : BitVec 28).toNat < 64) ∧
      ((61 : BitVec 28).toNat ≤ s.din.length ∧ 64 ≤ s.engine.bufcnt.toNat + (61 : BitVec 28).toNat) := by decide

/-- Also of ResetStateMeetsTheInvariant's use: an empty buffer, and one of 63 bytes. -/
theorem test_witness_AbsorbOfNothingChangesNothing :
    State.reset.engine.Inv ∧ State.reset.engine.phase = .active ∧
    (holding (List.replicate 63 0)).engine.Inv ∧ (holding (List.replicate 63 0)).engine.phase = .active := by decide

theorem test_witness_TotalCountsEveryByteAbsorbed :
    let s := (holding abc).offerData abc
    s.engine.Inv ∧ s.engine.phase = .active ∧ (3 : BitVec 28).toNat ≤ s.din.length := by decide

theorem test_witness_AbsorbIsInvariantUnderChunking :
    let s := (holding abc).offerData (List.replicate 62 0x78)
    s.engine.Inv ∧ s.engine.phase = .active ∧ (60 : BitVec 28).toNat + (2 : BitVec 28).toNat < 2 ^ 28 ∧
      (60 : BitVec 28).toNat + (2 : BitVec 28).toNat ≤ s.din.length := by decide

theorem test_witness_UseAfterFinalizeDrainsAndErrs :
    (spent.offerData abc).engine.phase = .consumed ∧ (3 : BitVec 28).toNat ≤ (spent.offerData abc).din.length ∧
    (spent.offerData abc).din.length < (4 : BitVec 28).toNat := by decide

/-- One byte short, and then supplied; in phase CONSUMED too. -/
theorem test_witness_ShortAbsorbWaitsAndResumes :
    (∀ s ∈ [State.reset, spent], (s.offerData abc).rst = false ∧ (s.offerData abc).alu.uop = none ∧
      (s.offerData abc).din.length < (4 : BitVec 28).toNat ∧
      (4 : BitVec 28).toNat ≤ ((s.offerData abc).din ++ [0x64]).length) := by decide

/-- R = 55 and R = 56: the two padding branches meet there. -/
theorem test_witness_FinalizePadsCompressesAndEmitsTheDigest :
    (∀ n ∈ [55, 56], (holding (List.replicate n 0x61)).engine.Inv ∧
      (holding (List.replicate n 0x61)).engine.phase = .active ∧
      (holding (List.replicate n 0x61)).rspReady = true ∧
      (holding (List.replicate n 0x61)).engine.bufcnt.toNat = n) := by decide

theorem test_witness_PaddingBlocksAreLaidOutAsSpecified :
    (List.replicate 55 (0x61 : Byte)).length < 56 ∧ 56 ≤ (List.replicate 56 (0x61 : Byte)).length ∧
    (List.replicate 63 (0x61 : Byte)).length ≤ 63 := by decide

theorem test_witness_EmptyMessageHasTheKnownDigest :
    State.reset.engine.h = iv ∧ State.reset.engine.len = 0 ∧ State.reset.engine.bufcnt = 0 ∧
    State.reset.engine.phase = .active ∧ State.reset.rspReady = true := by decide

theorem test_witness_FinalizeWaitsForItsResponseToBeAccepted :
    let s := (holding abc).setRspReady false
    s.engine.Inv ∧ s.engine.phase = .active ∧ s.rspReady = false ∧ s.rst = false ∧ s.alu.uop = none := by decide

/-- Every class of illegal word at the ends of its range, on a ready machine in either phase. -/
theorem test_witness_IllegalWordsRecordTheFirstErrorOnly :
    let op (w : BitVec 32) := w.toNat / 2 ^ 28
    let arg (w : BitVec 32) := w.toNat % 2 ^ 28
    (∀ s ∈ [State.reset, spent], (s.offerCommand 0).Ready ∧ (s.offerCommand 0).cmd = [0]) ∧
    op 0x00000000 = 0 ∧ op 0x0fffffff = 0 ∧ 4 ≤ op 0x40000000 ∧ 4 ≤ op 0xffffffff ∧
    (op 0x10000001 = 1 ∧ arg 0x10000001 ≠ 0) ∧ (op 0x3fffffff = 3 ∧ arg 0x3fffffff ≠ 0) ∧
    op 0x20000000 = 2 := by decide

theorem test_witness_ErrorChecksRunInOrder :
    let op (w : BitVec 32) := w.toNat / 2 ^ 28
    let arg (w : BitVec 32) := w.toNat % 2 ^ 28
    (∀ w, let s := (spent.offerData abc).offerCommand w
      s.Ready ∧ s.cmd = [w] ∧ s.engine.err = false ∧ s.engine.phase = .consumed ∧ s.din.length = 3) ∧
    op 0x0fffffff = 0 ∧ 4 ≤ op 0x40000000 ∧ (op 0x10000001 = 1 ∧ arg 0x10000001 ≠ 0) ∧
    (op 0x30000001 = 3 ∧ arg 0x30000001 ≠ 0) ∧ (op 0x30000000 = 3 ∧ arg 0x30000000 = 0) ∧
    (op 0x20000003 = 2 ∧ arg 0x20000003 ≤ 3) :=
  ⟨fun _ => ⟨⟨rfl, rfl, rfl⟩, rfl, rfl, rfl, rfl⟩, by decide⟩

/-- A ready machine with an error on record that is sent another bad word. -/
def erred : State := (State.reset.raise .illegalOpcode).offerCommand 0x10000005

/-- Also of RunFaultIsNeverCleared. -/
theorem test_witness_ErrorStaysUntilReset :
    erred.rst = false ∧ erred.engine.err = true ∧ erred.faulted = true ∧ ∃ t, step erred = .next t :=
  ⟨rfl, rfl, rfl, _, rfl⟩

/-- An ABSORB that waits for two bytes: both commands that wait, before and after the host has done its duty. -/
theorem test_witness_StatusDuringACommandShowsOldOrNewFields :
    let f := InFlight.absorb 2 []
    let s : State := { spent with inflight := some f }
    s.inflight = some f ∧ (s.offerData abc).engine = s.engine ∧ (s.offerData abc).inflight = some f ∧
    ∃ t, resume f (s.offerData abc) = .next t ∧ t.inflight = none := ⟨rfl, rfl, rfl, _, rfl, rfl⟩

/-- A step of each outcome: the fault is of a state that the invariant rules out. -/
theorem test_witness_StatusReadsNeverAffectAStep :
    (∃ t, step State.reset = .next t) ∧ step (State.reset.withMicroOp 0xc000) = .refused .reservedAluFunction ∧
    step { State.reset with cmd := [0x30000000], engine := { Engine.reset with bufcnt := 1 } } =
      .fault (.unspecifiedByte 0) := ⟨⟨_, rfl⟩, rfl, rfl⟩

theorem test_witness_CommandsAreAcceptedOnlyWhenReady :
    State.reset.inflight = none ∧ State.reset.rst = false ∧ (State.reset.offerCommand 0x10000000).cmdReady = true ∧
    ∃ t, step (State.reset.offerCommand 0x10000000) = .next t ∧ t.cmd = [] := ⟨rfl, rfl, rfl, _, rfl, rfl⟩

theorem test_witness_PayloadBytesAreTakenOnlyByAbsorb :
    ∃ t, step ((State.reset.offerCommand 0x20000003).offerData abc) = .next t ∧ t.din = [] := ⟨_, rfl, rfl⟩

/-- A step that emits nothing; `test_finalize_one_and_two_blocks` is of steps that emit a response. -/
theorem test_witness_ResponsesComeOnlyFromARunningFinalize :
    ∃ t, step State.reset = .next t ∧ t.responses = State.reset.responses := ⟨_, rfl, rfl⟩

theorem test_witness_OnlyInitReactivatesTheEngine :
    (spent.offerCommand 0x10000000).rst = false ∧ (spent.offerCommand 0x10000000).engine.phase = .consumed ∧
    ∃ t, step (spent.offerCommand 0x10000000) = .next t ∧ t.engine.phase = .active := ⟨rfl, rfl, _, rfl, rfl⟩

/-- An INIT that moves H off another value, and an ABSORB that moves BUFCNT. -/
theorem test_witness_HashStateIsWrittenOnlyByTheThreeCommands :
    let s : State := { State.reset with cmd := [0x10000000], engine := { Engine.reset with h := { iv with h0 := 0 } } }
    let s' : State := (State.reset.offerCommand 0x20000003).offerData abc
    (s.rst = false ∧ ∃ t, step s = .next t ∧ t.engine.h ≠ s.engine.h) ∧
    (s'.rst = false ∧ ∃ t, step s' = .next t ∧ t.engine.bufcnt ≠ s'.engine.bufcnt) :=
  ⟨⟨rfl, _, rfl, by decide⟩, rfl, _, rfl, by decide⟩

theorem test_witness_StepRunsTheDecodedInstruction :
    ((State.reset.offerCommand 0x20000003).Ready ∧ (State.reset.offerCommand 0x20000003).cmd = [0x20000003] ∧
      decode (.cmd 0x20000003) = .ok (.absorb 3)) ∧
    (State.reset.withMicroOp 0x4004).rst = false ∧ (State.reset.withMicroOp 0x4004).alu.uop = some 0x4004 ∧
    decode (.uop 0x4004) = .ok (.aluRotr 4) := by decide

/-- Of PlacedWordIsRunNext: a micro-op word that decodes. -/
theorem test_witness_PlacedWordIsRunNext : decode (.uop 0xb000) = .ok .aluMaj := by decide

/-- Of the invariant's statements (EveryStepKeepsTheInvariant, EveryHostMoveKeepsTheInvariant,
NoStepFaultsFromAGoodState): a machine in the middle of an ABSORB, with bytes buffered, meets the invariant, and steps. -/
theorem test_witness_EveryStepKeepsTheInvariant :
    let s : State := { (holding abc).offerData [0x64] with inflight := some (.absorb 3 [0x65]) }
    s.Inv ∧ s.alu.uop = none ∧ ∃ t, step s = .next t := ⟨by decide, rfl, _, rfl⟩

theorem test_witness_LongAbsorbSplitsIntoLegalAbsorbs : abc.length < 2 ^ 28 ∧ abc ∈ absorbPieces abc := by decide

theorem test_witness_EngineComputesSha256OfTheMessage :
    let ps : List (List Byte) := [[0x61], [], [0x62, 0x63]]
    let s : State := { spent with
      cmd := initWord :: (ps.map (fun p => absorbWord p.length) ++ [finalizeWord]), din := ps.flatten ++ [0x64] }
    s.Inv ∧ s.Ready ∧ s.rspReady = true ∧ (∀ p ∈ ps, p.length < 2 ^ 28) ∧ ps.flatten.length < 2 ^ 61 := by decide

theorem test_witness_DigestPseudoCommandHashesTheMessage :
    State.reset.Inv ∧ State.reset.Ready ∧ State.reset.rspReady = true ∧ State.reset.cmd = [] ∧ State.reset.din = [] ∧
    abc.length < 2 ^ 61 := by decide

end Sys2Proof.Tests
end

section
/-! The state's family: what a step may do to the engine's registers when reset is not asserted, said once
(`step_engine_cases`); that no step reads the count of STATUS reads; and the fields of the STATUS word. -/

namespace Sys2Proof.Proofs

open Sys2Proof.Machine Sys2Proof.Laws

/-! ## Who writes the engine's registers -/

/-- No command is in flight, and the word next on the command channel decodes to `i`: the step accepts an `i`. -/
def Accepts (s : State) (i : Instr) : Prop :=
  s.inflight = none ∧ ∃ w rest, s.cmd = w :: rest ∧ decodeCmd w = i

/-- The step runs an ABSORB: one in flight, or one that it accepts. -/
def RunsAbsorb (s : State) : Prop :=
  (∃ arg got, s.inflight = some (.absorb arg got)) ∨ ∃ arg, Accepts s (.absorb arg)

/-- The step runs a FINALIZE: one in flight, or one that it accepts. -/
def RunsFinalize (s : State) : Prop := s.inflight = some .finalize ∨ Accepts s .finalize

/-- What a step out of reset may do to the engine: nothing, the record of a command error (R212), or the one effect of
the command it runs (R116, R119, R123). -/
inductive EngineChange (s : State) (e : Engine) : Prop where
  | kept (he : e = s.engine)
  | error (code : CmdErrorCode) (he : e = s.engine.recordError code)
  | init (hu : s.alu.uop = none) (hi : Accepts s .init) (he : e = s.engine.init)
  | absorb (hu : s.alu.uop = none) (ha : RunsAbsorb s) (p : List Byte) (he : s.engine.absorb p = .ok e)
  | finalize (hu : s.alu.uop = none) (hf : RunsFinalize s) (he : s.engine.finalize = .ok e)

/-- An ABSORB leaves the engine as it was while it waits, records an error, or absorbs its payload. -/
theorem absorbFrom_engine {arg : BitVec 28} {got : List Byte} {s t : State} (h : absorbFrom arg got s = .next t) :
    t.engine = s.engine ∨ (∃ code, t.engine = s.engine.recordError code) ∨
      ∃ p, s.engine.absorb p = .ok t.engine := by
  rcases absorbFrom_cases h with ⟨_, rfl⟩ | hp
  · exact .inl rfl
  · rcases absorbPayload_cases hp with ⟨_, rfl⟩ | ⟨_, e, he, rfl⟩
    · exact .inr (.inl ⟨_, rfl⟩)
    · exact .inr (.inr ⟨_, he⟩)

/-- A FINALIZE leaves the engine as it was while it waits, records an error, or finishes the digest. -/
theorem execFinalize_engine {s t : State} (h : execFinalize s = .next t) :
    t.engine = s.engine ∨ (∃ code, t.engine = s.engine.recordError code) ∨ s.engine.finalize = .ok t.engine := by
  rcases execFinalize_cases h with ⟨_, rfl⟩ | ⟨_, e, he, ⟨_, rfl⟩ | ⟨_, rfl⟩⟩
  · exact .inr (.inl ⟨_, rfl⟩)
  · exact .inr (.inr he)
  · exact .inl rfl

/-- An ABSORB that a step runs changes the engine in one of the ways listed. -/
theorem EngineChange.of_absorbFrom {arg : BitVec 28} {got : List Byte} {s s' t : State} (hs : s'.engine = s.engine)
    (hu : s.alu.uop = none) (ha : RunsAbsorb s) (h : absorbFrom arg got s' = .next t) : EngineChange s t.engine := by
  rcases absorbFrom_engine h with he | ⟨code, he⟩ | ⟨p, he⟩ <;> rw [hs] at he
  · exact .kept he
  · exact .error code he
  · exact .absorb hu ha p he

/-- A FINALIZE that a step runs changes the engine in one of the ways listed. -/
theorem EngineChange.of_execFinalize {s s' t : State} (hs : s'.engine = s.engine) (hu : s.alu.uop = none)
    (hf : RunsFinalize s) (h : execFinalize s' = .next t) : EngineChange s t.engine := by
  rcases execFinalize_engine h with he | ⟨code, he⟩ | he <;> rw [hs] at he
  · exact .kept he
  · exact .error code he
  · exact .finalize hu hf he

/-- Every step out of reset changes the engine in one of the ways listed. -/
theorem step_engine_cases {s t : State} (hrst : s.rst = false) (h : step s = .next t) : EngineChange s t.engine := by
  rcases step_cases h with ⟨hr, _⟩ | ⟨_, ⟨w, y, _, rfl⟩ | ⟨hu, ⟨f, hf, hres⟩ | ⟨hn, ⟨w, rest, hc, hex⟩ | ⟨_, rfl⟩⟩⟩⟩
  · rw [hrst] at hr
    cases hr
  · exact .kept rfl
  · cases f with
    | absorb arg got => exact .of_absorbFrom rfl hu (.inl ⟨arg, got, hf⟩) hres
    | finalize => exact .of_execFinalize rfl hu (.inl hf) hres
  · have accepts : Accepts s (decodeCmd w) := ⟨hn, w, rest, hc, rfl⟩
    rcases exec_cases hex with ⟨hi, rfl⟩ | ⟨arg, hi, ha⟩ | ⟨hi, hf⟩ | ⟨_, _, _, _, code, rfl⟩ | ⟨_, y, rfl⟩
    · exact .init hu (hi ▸ accepts) rfl
    · exact .of_absorbFrom (s' := s.takeCommand) rfl hu (.inr ⟨arg, hi ▸ accepts⟩) ha
    · exact .of_execFinalize (s' := s.takeCommand) rfl hu (.inr (hi ▸ accepts)) hf
    · exact .error code rfl
    · exact .kept rfl
  · exact .kept rfl

/-- Settles O41: of the ways a step out of reset changes the engine only the record of an error writes ERR or ERRCODE,
and it writes neither once ERR is 1 (R212). -/
theorem errorStaysUntilReset : Obligations.ErrorStaysUntilReset := by
  intro s t hrst h herr
  cases step_engine_cases hrst h with
  | kept he => simp [he, herr]
  | error code he => simp [he, herr, recordError_errcode]
  | init _ _ he => simp [he, herr]
  | absorb _ _ p he =>
    obtain ⟨_, he1, he2⟩ := absorb_keeps he
    exact ⟨he1.trans herr, he2⟩
  | finalize _ _ he =>
    obtain ⟨_, he1, he2⟩ := finalize_keeps he
    exact ⟨he1.trans herr, he2⟩

/-- Only the word 0x10000000 decodes to INIT (R91, R93). -/
theorem decodeCmd_init {w : BitVec 32} (h : decodeCmd w = .init) : w = 0x10000000 := by
  rw [← opField_append_argField w]
  unfold decodeCmd at h
  split at h
  · cases h
  · split at h
    · split at h
      · simp_all
      · cases h
    · repeat' split at h
      all_goals cases h

/-- Settles O49: every other way a step out of reset changes the engine leaves PHASE as it was or at CONSUMED. -/
theorem onlyInitReactivatesTheEngine : Obligations.OnlyInitReactivatesTheEngine := by
  intro s t hrst h hconsumed hactive
  have moved : t.engine.phase ≠ s.engine.phase := by simp [hconsumed, hactive]
  cases step_engine_cases hrst h with
  | kept he => exact absurd (by rw [he]) moved
  | error code he => exact absurd (by simp [he]) moved
  | init _ hi he =>
    obtain ⟨hn, w, rest, hc, hw⟩ := hi
    exact ⟨hn, by rw [hc, decodeCmd_init hw]; rfl, he⟩
  | absorb _ _ p he => exact absurd (absorb_keeps he).1 moved
  | finalize _ _ he => exact absurd ((finalize_keeps he).1.trans hconsumed.symm) moved

/-- Settles O50: the record of an error writes neither H nor LEN, BUFCNT, BUF, and FINALIZE none of the last three. -/
theorem hashStateIsWrittenOnlyByTheThreeCommands : Obligations.HashStateIsWrittenOnlyByTheThreeCommands := by
  intro s t hrst h
  dsimp only
  cases step_engine_cases hrst h with
  | kept he => simp [he]
  | error code he => simp [he]
  | init hu hi he => exact ⟨fun _ => ⟨hu, .inr (.inl hi)⟩, fun _ => ⟨hu, .inr (.inl hi)⟩⟩
  | absorb hu ha p he =>
    rcases ha with ⟨arg, got, hf⟩ | hacc
    · exact ⟨fun _ => ⟨hu, .inl (by simp [hf])⟩, fun _ => ⟨hu, .inl ⟨arg, got, hf⟩⟩⟩
    · exact ⟨fun _ => ⟨hu, .inr (.inr (.inl hacc))⟩, fun _ => ⟨hu, .inr (.inr hacc)⟩⟩
  | finalize hu hf he =>
    obtain ⟨hlen, hcnt, hbuf⟩ := finalize_leaves_buffer he
    refine ⟨fun _ => ⟨hu, ?_⟩, fun hne => by simp [hlen, hcnt, hbuf] at hne⟩
    rcases hf with hfl | hacc
    · exact .inl (by simp [hfl])
    · exact .inr (.inr (.inr hacc))

/-! ## No step reads the count of STATUS reads -/

/-- The state with another count of STATUS reads. -/
def withReads (n : Nat) (s : State) : State := { s with statusReads := n }

/-- An outcome with another count of STATUS reads in its next state, if it answers one. -/
def outcomeWithReads (n : Nat) : Host.Outcome State Fault Refusal → Host.Outcome State Fault Refusal
  | .next t => .next (withReads n t)
  | .fault r => .fault r
  | .refused r => .refused r

/-- An ABSORB with its whole payload reads no count of STATUS reads. -/
theorem absorbPayload_withReads (n : Nat) (p : List Byte) (s : State) :
    absorbPayload p (withReads n s) = outcomeWithReads n (absorbPayload p s) := by
  have hs : (withReads n s).engine = s.engine := rfl
  unfold absorbPayload
  rw [hs]
  split
  · rfl
  · split <;> rfl

/-- An ABSORB from its acceptance or in flight reads no count of STATUS reads. -/
theorem absorbFrom_withReads (n : Nat) (arg : BitVec 28) (got : List Byte) (s : State) :
    absorbFrom arg got (withReads n s) = outcomeWithReads n (absorbFrom arg got s) := by
  have htaken : payloadTaken arg got (withReads n s) = payloadTaken arg got s := rfl
  have hrest : acceptPayload arg got (withReads n s) = withReads n (acceptPayload arg got s) := rfl
  unfold absorbFrom
  rw [htaken, hrest]
  split
  · rfl
  · exact absorbPayload_withReads n _ _

/-- A FINALIZE reads no count of STATUS reads. -/
theorem execFinalize_withReads (n : Nat) (s : State) :
    execFinalize (withReads n s) = outcomeWithReads n (execFinalize s) := by
  have he : (withReads n s).engine = s.engine := rfl
  have hr : (withReads n s).rspReady = s.rspReady := rfl
  unfold execFinalize
  rw [he, hr]
  split
  · rfl
  · split
    · rfl
    · split <;> rfl

/-- A command in flight reads no count of STATUS reads. -/
theorem resume_withReads (n : Nat) (f : InFlight) (s : State) :
    resume f (withReads n s) = outcomeWithReads n (resume f s) := by
  cases f with
  | absorb arg got => exact absorbFrom_withReads n arg got s
  | finalize => exact execFinalize_withReads n s

/-- No instruction reads the count of STATUS reads; ABSORB and FINALIZE are the two that branch on the state. -/
theorem exec_withReads (n : Nat) (i : Instr) (s : State) :
    exec i (withReads n s) = outcomeWithReads n (exec i s) := by
  cases i with
  | absorb arg => exact absorbFrom_withReads n arg [] s
  | finalize => exact execFinalize_withReads n s
  | _ => rfl

/-- No step reads the count of STATUS reads (R252). -/
theorem step_withReads (n : Nat) (s : State) : step (withReads n s) = outcomeWithReads n (step s) := by
  have hev : (withReads n s).nextEvent = s.nextEvent := rfl
  unfold step
  rw [hev]
  cases s.nextEvent with
  | reset => rfl
  | microOp w =>
    dsimp only
    cases decodeUop w with
    | ok i => exact exec_withReads n i s.takeMicroOp
    | error why => rfl
  | resume f => exact resume_withReads n f s
  | command w => exact exec_withReads n (decodeCmd w) s.takeCommand
  | idle => rfl

/-- Settles O45: a step commutes with replacing the count of STATUS reads (`step_withReads`), whatever it answers. -/
theorem statusReadsNeverAffectAStep : Obligations.StatusReadsNeverAffectAStep := by
  refine fun s => ⟨rfl, fun n => ⟨fun t h => ?_, fun r h => ?_, fun r h => ?_⟩⟩ <;>
    exact (step_withReads n s).trans (congrArg (outcomeWithReads n) h)

/-! ## The fields of the STATUS word (R38) -/

section StatusWord
variable (consumed err busy : Bool) (errcode : BitVec 4)

/-- The STATUS word bit by bit: above bit 7 ERRCODE has no bit, so the upper reserved bits read 0. -/
theorem statusWord_getLsbD (i : Nat) :
    (statusWord consumed err busy errcode).getLsbD i =
      match i with
      | 0 => consumed
      | 1 => err
      | 2 => busy
      | 3 => false
      | k + 4 => errcode.getLsbD k := by
  have fields : (statusWord consumed err busy errcode).getLsbD i =
      (0#24 ++ errcode ++ 0#1 ++ BitVec.ofBool busy ++ BitVec.ofBool err ++ BitVec.ofBool consumed).getLsbD i := rfl
  rw [fields]
  simp only [BitVec.getLsbD_append]
  match i with
  | 0 => simp
  | 1 => simp
  | 2 => simp
  | 3 => simp
  | k + 4 => simpa using BitVec.lt_of_getLsbD

theorem statusWord_errcode : (statusWord consumed err busy errcode).extractLsb' 4 4 = errcode := by
  ext i hi
  rw [BitVec.getElem_extractLsb', Nat.add_comm, statusWord_getLsbD]
  exact BitVec.getLsbD_eq_getElem hi

theorem statusWord_reserved_high : (statusWord consumed err busy errcode).extractLsb' 8 24 = 0 := by
  ext i hi
  rw [BitVec.getElem_extractLsb', show 8 + i = (i + 4) + 4 by omega, statusWord_getLsbD]
  simp

end StatusWord

/-- STATUS between commands is the engine's (R41). -/
theorem statusPort_of_idle {s : State} (h : s.inflight = none) : s.statusPort = s.engine.status := by
  simp [State.statusPort, h]

/-- In every state the status port shows a STATUS word with BUSY in its bit, whatever the draws (R88, R250). -/
theorem statusPort_eq_statusWord (s : State) :
    ∃ consumed err errcode, s.statusPort = statusWord consumed err s.busy errcode := by
  unfold State.statusPort State.busy
  cases s.inflight with
  | none => exact ⟨_, _, _, rfl⟩
  | some f => exact ⟨_, _, _, rfl⟩

/-- Settles O43: what the status port shows is a STATUS word in every state, and the engine's own between commands. -/
theorem statusShowsItsFields : Obligations.StatusShowsItsFields := by
  intro s
  obtain ⟨c, e, code, hport⟩ := statusPort_eq_statusWord s
  rw [hport]
  refine ⟨statusWord_getLsbD _ _ _ _ 3, statusWord_reserved_high _ _ _ _, statusWord_getLsbD _ _ _ _ 2, fun hn => ?_⟩
  rw [← hport, statusPort_of_idle hn]
  exact ⟨by simp [State.busy, hn], statusWord_getLsbD _ _ _ _ 0, statusWord_getLsbD _ _ _ _ 1,
    statusWord_errcode _ _ _ _⟩

end Sys2Proof.Proofs
end

section
/-! The memory's family: FINALIZE's padding blocks byte by byte, the digest's bytes and their place in the response
word, and which steps emit a response (`step_response_cases`). -/

namespace Sys2Proof.Proofs

open Sys2Proof.Machine Sys2Proof.Laws

/-! ## The padding blocks (R61, R69) -/

@[simp] theorem zeros_length (k : Nat) : (zeros k).length = k := List.length_replicate

@[simp] theorem zeros_getD (k j : Nat) : (zeros k).getD j 0 = 0 := by
  unfold zeros
  rw [List.getD_eq_getElem?_getD, List.getElem?_replicate]
  split <;> rfl

@[simp] theorem be64Bytes_length (v : BitVec 64) : (be64Bytes v).length = 8 := rfl

/-- Byte k of the big-endian bytes of a 64-bit value (R20). -/
theorem be64Bytes_getD (v : BitVec 64) {k : Nat} (hk : k < 8) :
    (be64Bytes v).getD k 0 = v.extractLsb' (56 - 8 * k) 8 := by
  interval_cases k <;> rfl

/-- A buffered message, the marker byte after it, and `z` zeros: how FINALIZE's first padding block begins (R123). -/
def markedMessage (msg : List Byte) (z : Nat) : List Byte := msg ++ [0x80] ++ zeros z

section MarkedMessage
variable (msg : List Byte) (z : Nat)

theorem markedMessage_eq : markedMessage msg z = msg ++ [0x80] ++ zeros z := rfl

@[simp] theorem markedMessage_length : (markedMessage msg z).length = msg.length + 1 + z := by
  simp [markedMessage]
  omega

theorem markedMessage_take : (markedMessage msg z).take msg.length = msg := by
  rw [markedMessage, List.append_assoc]
  exact List.take_left

theorem markedMessage_getD_marker : (markedMessage msg z).getD msg.length 0 = 0x80 := by
  simp [markedMessage]

/-- After the marker there are zeros only. -/
theorem markedMessage_getD_after {j : Nat} (hj : msg.length < j) : (markedMessage msg z).getD j 0 = 0 := by
  have hlen : (msg ++ [0x80]).length ≤ j := by simpa using hj
  rw [markedMessage, List.getD_append_right _ _ _ _ hlen]
  exact zeros_getD z _

end MarkedMessage

/-- 56 bytes and the length suffix: bytes 56..63 are the bit length, most significant first (R61). -/
theorem lengthSuffix_getD {pre : List Byte} (hpre : pre.length = 56) (v : BitVec 64) {k : Nat} (hk : k < 8) :
    (pre ++ be64Bytes v).getD (56 + k) 0 = v.extractLsb' (56 - 8 * k) 8 := by
  rw [List.getD_append_right _ _ _ _ (by omega), hpre, Nat.add_sub_cancel_left]
  exact be64Bytes_getD v hk

/-- Fewer than 56 buffered bytes take one padding block (R124). -/
theorem padAndCompress_one {msg : List Byte} (h : msg.length < 56) (H : HashState) (v : BitVec 64) :
    padAndCompress H msg v = compress H (markedMessage msg (55 - msg.length) ++ be64Bytes v) := if_pos h

/-- 56 buffered bytes or more take two padding blocks (R125). -/
theorem padAndCompress_two {msg : List Byte} (h : 56 ≤ msg.length) (H : HashState) (v : BitVec 64) :
    padAndCompress H msg v =
      compress (compress H (markedMessage msg (63 - msg.length))) (zeros 56 ++ be64Bytes v) :=
  if_neg (Nat.not_lt.mpr h)

/-- Settles O35: the first block is the marked message, filled to byte 55 when the length suffix follows it in the same
block and to byte 63 when the suffix stands in a block of its own. -/
theorem paddingBlocksAreLaidOutAsSpecified : Obligations.PaddingBlocksAreLaidOutAsSpecified := by
  intro msg v hmsg
  dsimp only
  simp only [← markedMessage_eq]
  refine ⟨fun hshort => ?_, fun hlong => ?_⟩
  · have hpre : (markedMessage msg (55 - msg.length)).length = 56 := by rw [markedMessage_length]; omega
    have beforeSuffix {j : Nat} (hj : j < 56) : (markedMessage msg (55 - msg.length) ++ be64Bytes v).getD j 0 =
        (markedMessage msg (55 - msg.length)).getD j 0 := List.getD_append _ _ _ _ (by omega)
    refine ⟨fun H => padAndCompress_one hshort H v, ?_, ?_, ?_, fun j hj hj' => ?_, fun k hk => ?_⟩
    · rw [List.length_append, hpre, be64Bytes_length]
    · rw [List.take_append_of_le_length (by omega), markedMessage_take]
    · rw [beforeSuffix hshort, markedMessage_getD_marker]
    · rw [beforeSuffix hj', markedMessage_getD_after _ _ hj]
    · exact lengthSuffix_getD hpre v hk
  · refine ⟨fun H => padAndCompress_two hlong H v, ?_, by simp, markedMessage_take _ _, markedMessage_getD_marker _ _,
      fun j hj _ => markedMessage_getD_after _ _ hj, fun j hj => ?_, fun k hk => ?_⟩
    · rw [markedMessage_length]
      omega
    · rw [List.getD_append _ _ _ _ (by simpa using hj), zeros_getD]
    · exact lengthSuffix_getD (zeros_length 56) v hk

/-! ## The digest and the response word (R62, R87) -/

/-- Byte 4i + j of the big-endian bytes of a list of words is byte j of word i (R20). -/
theorem flatMap_be32Bytes_getD (ws : List Word) {i j : Nat} (hi : i < ws.length) (hj : j < 4) :
    (ws.flatMap be32Bytes).getD (4 * i + j) 0 = (ws.getD i 0).extractLsb' (24 - 8 * j) 8 := by
  induction ws generalizing i with
  | nil => cases hi
  | cons w ws ih =>
    have hw : (be32Bytes w).length = 4 := rfl
    rw [List.flatMap_cons]
    cases i with
    | zero =>
      rw [List.getD_append _ _ _ _ (by omega)]
      interval_cases j <;> rfl
    | succ i =>
      rw [List.getD_append_right _ _ _ _ (by omega), hw, show 4 * (i + 1) + j - 4 = 4 * i + j by omega,
        List.getD_cons_succ]
      exact ih (Nat.lt_of_succ_lt_succ hi)

theorem digestBytes_length (H : HashState) : (digestBytes H).length = 32 := rfl

/-- One byte more shifts the response word up by a byte. -/
theorem rspWord_concat (d : List Byte) (b : Byte) : rspWord (d ++ [b]) = rspWord d <<< 8 ||| b.setWidth 256 := by
  simp [rspWord]

/-- The lowest byte of a word that was shifted up by a byte is the byte put there. -/
theorem extractLsb'_zero_shiftLeft_or (x : BitVec 256) (b : Byte) :
    (x <<< 8 ||| b.setWidth 256).extractLsb' 0 8 = b := by
  ext i hi
  simp [hi, BitVec.getLsbD_eq_getElem, show i < 256 by omega]

/-- The other bytes of a word that was shifted up by a byte are the bytes below them before. -/
theorem extractLsb'_succ_shiftLeft_or (x : BitVec 256) (b : Byte) {m : Nat} (hm : m + 1 < 32) :
    (x <<< 8 ||| b.setWidth 256).extractLsb' (8 * (m + 1)) 8 = x.extractLsb' (8 * m) 8 := by
  ext i hi
  have hb : b.getLsbD (8 * (m + 1) + i) = false := BitVec.getLsbD_of_ge _ _ (by omega)
  have hidx : 8 * (m + 1) + i - 8 = 8 * m + i := by omega
  simp [hb, hidx]
  omega

/-- Byte m of the response word, counted from the low end, is byte m of the digest counted from its last. -/
theorem rspWord_extractLsb' (d : List Byte) {m : Nat} (hm : m < 32) :
    (rspWord d).extractLsb' (8 * m) 8 = d.reverse.getD m 0 := by
  induction d using List.reverseRecOn generalizing m with
  | nil => simp [rspWord]
  | append_singleton d b ih =>
    rw [rspWord_concat, List.reverse_concat]
    cases m with
    | zero => exact extractLsb'_zero_shiftLeft_or _ b
    | succ m =>
      rw [extractLsb'_succ_shiftLeft_or _ b hm, List.getD_cons_succ]
      exact ih (by omega)

/-- Settles O36: the digest lists its words' big-endian bytes, and the response word holds a list's last byte lowest. -/
theorem digestLeavesMostSignificantByteFirst : Obligations.DigestLeavesMostSignificantByteFirst := by
  refine fun H => ⟨digestBytes_length H, fun i hi j hj => flatMap_be32Bytes_getD H.words hi hj, fun k hk => ?_⟩
  have hlen := digestBytes_length H
  rw [show 248 - 8 * k = 8 * (31 - k) by omega, rspWord_extractLsb' _ (by omega), List.getD_reverse _ (by omega)]
  congr 1
  omega

/-! ## Which steps emit a response (R73, R87) -/

/-- From `s` to `t` no response is added, and the phase does not go from ACTIVE to CONSUMED. -/
def Silent (s t : State) : Prop :=
  t.responses = s.responses ∧ ¬(s.engine.phase = .active ∧ t.engine.phase = .consumed)

/-- From `s` to `t` the host accepts one response, the digest of the H that `t` holds, and the phase goes from ACTIVE to
CONSUMED. -/
def EmitsDigest (s t : State) : Prop :=
  t.responses = s.responses ++ [rspWord (digestBytes t.engine.h)] ∧ s.rspReady = true ∧
    s.engine.phase = .active ∧ t.engine.phase = .consumed

theorem Silent.of_phase_eq {s t : State} (hr : t.responses = s.responses) (hp : t.engine.phase = s.engine.phase) :
    Silent s t :=
  ⟨hr, fun ⟨ha, hc⟩ => by rw [hp, ha] at hc; cases hc⟩

theorem Silent.of_active {s t : State} (hr : t.responses = s.responses) (hp : t.engine.phase = .active) :
    Silent s t :=
  ⟨hr, fun ⟨_, hc⟩ => by rw [hp] at hc; cases hc⟩

/-- An ABSORB emits nothing and leaves the phase (R119, R214). -/
theorem absorbFrom_silent {arg : BitVec 28} {got : List Byte} {s t : State} (h : absorbFrom arg got s = .next t) :
    Silent s t := by
  rcases absorbFrom_cases h with ⟨_, rfl⟩ | hp
  · exact .of_phase_eq rfl rfl
  · rcases absorbPayload_cases hp with ⟨_, rfl⟩ | ⟨_, e, he, rfl⟩
    · exact .of_phase_eq rfl (by simp)
    · exact .of_phase_eq rfl (absorb_keeps he).1

/-- A FINALIZE emits its digest when it runs and the host is ready, and else nothing (R123, R214, R249). -/
theorem execFinalize_silent_or_emits {s t : State} (h : execFinalize s = .next t) : Silent s t ∨ EmitsDigest s t := by
  rcases execFinalize_cases h with ⟨_, rfl⟩ | ⟨hp, e, he, ⟨hready, rfl⟩ | ⟨_, rfl⟩⟩
  · exact .inl (.of_phase_eq rfl (by simp))
  · exact .inr ⟨rfl, hready, hp, (finalize_keeps he).1⟩
  · exact .inl (.of_phase_eq rfl rfl)

/-- Of the instructions only FINALIZE emits. -/
theorem exec_silent_or_emits {i : Instr} {s t : State} (h : exec i s = .next t) :
    Silent s t ∨ (i = .finalize ∧ EmitsDigest s t) := by
  rcases exec_cases h with ⟨_, rfl⟩ | ⟨arg, _, ha⟩ | ⟨hi, hf⟩ | ⟨_, _, _, _, code, rfl⟩ | ⟨_, y, rfl⟩
  · exact .inl (.of_active rfl rfl)
  · exact .inl (absorbFrom_silent ha)
  · exact (execFinalize_silent_or_emits hf).imp_right fun he => ⟨hi, he⟩
  · exact .inl (.of_phase_eq rfl (by simp))
  · exact .inl (.of_phase_eq rfl rfl)

/-- A step is silent, or it runs a FINALIZE that emits its digest. -/
theorem step_response_cases {s t : State} (h : step s = .next t) :
    Silent s t ∨ (RunsFinalize s ∧ EmitsDigest s t) := by
  rcases step_cases h with ⟨_, rfl⟩ | ⟨_, ⟨w, y, _, rfl⟩ | ⟨_, ⟨f, hf, hres⟩ | ⟨hn, ⟨w, rest, hc, hex⟩ | ⟨_, rfl⟩⟩⟩⟩
  · exact .inl (.of_active rfl rfl)
  · exact .inl (.of_phase_eq rfl rfl)
  · cases f with
    | absorb arg got => exact .inl (absorbFrom_silent hres)
    | finalize => exact (execFinalize_silent_or_emits hres).imp_right fun he => ⟨.inl hf, he⟩
  · exact (exec_silent_or_emits (s := s.takeCommand) hex).imp_right fun ⟨hw, he⟩ => ⟨.inr ⟨hn, w, rest, hc, hw⟩, he⟩
  · exact .inl (.of_phase_eq rfl rfl)

/-- The word of a FINALIZE that a step accepts heads the command channel (R91). -/
theorem cmd_head_of_accepts_finalize {s : State} (h : Accepts s .finalize) : s.cmd.head? = some 0x30000000 := by
  obtain ⟨_, w, rest, hc, hw⟩ := h
  rw [hc, decodeCmd_finalize hw]
  rfl

/-- Settles O48: only a FINALIZE that runs, in flight or accepted by the step, emits. -/
theorem responsesComeOnlyFromARunningFinalize : Obligations.ResponsesComeOnlyFromARunningFinalize := by
  intro s t h
  rcases step_response_cases h with hsilent | ⟨hrun, hemits⟩
  · exact .inl hsilent
  · exact .inr ⟨hrun.imp_right fun hacc => ⟨hacc.1, cmd_head_of_accepts_finalize hacc⟩, hemits⟩

end Sys2Proof.Proofs
end

section
/-! The encoding's family: the decoders on numbers, what a step takes off the host's channels, the pieces of a long
absorb, and the run of a message from INIT to its digest (`run_message`). -/

namespace Sys2Proof.Proofs

open Sys2Proof.Machine Sys2Proof.Laws

/-! ## Command words (R90 to R97) -/

theorem opField_eq (w : BitVec 32) : opField w = BitVec.ofNat 4 (w.toNat / 2 ^ 28) :=
  congrArg (BitVec.ofNat 4) (Nat.shiftRight_eq_div_pow _ _)

theorem argField_eq (w : BitVec 32) : argField w = BitVec.ofNat 28 (w.toNat % 2 ^ 28) := by
  apply BitVec.eq_of_toNat_eq
  simp [argField]

/-- ARG is 0 as a field exactly when it is 0 as a number. -/
theorem ofNat_arg_eq_zero_iff (n : Nat) : BitVec.ofNat 28 (n % 2 ^ 28) = 0 ↔ n % 2 ^ 28 = 0 := by
  rw [← BitVec.toNat_inj]
  simp

/-- Settles O3: the decoding function reads the two fields of the word, which are the quotient and the remainder by
2^28. -/
theorem commandWordsDecodeByOpAndArg : Obligations.CommandWordsDecodeByOpAndArg := by
  intro w op arg
  have hop : opField w = BitVec.ofNat 4 op := opField_eq w
  have harg : argField w = BitVec.ofNat 28 arg := argField_eq w
  have harg0 : BitVec.ofNat 28 arg = 0 ↔ arg = 0 := ofNat_arg_eq_zero_iff w.toNat
  have hop16 : op < 16 := by
    have hw : w.toNat < 2 ^ 32 := w.isLt
    omega
  clear_value op arg
  simp only [decodeCmd, hop, harg, harg0]
  refine ⟨?_, ?_, ?_, ?_, ?_, ?_, fun hlo hhi => ?_, fun hlo => ?_⟩
  · rintro rfl rfl; rfl
  · rintro rfl hne; simp [hne]
  · rintro rfl; rfl
  · rintro rfl rfl; rfl
  · rintro rfl hne; simp [hne]
  · rintro rfl; rfl
  · interval_cases op <;> rfl
  · interval_cases op <;> rfl

/-- Settles O4: the decoder evaluated on the twelve words. -/
theorem exampleWordsOfTheSpecDecode : Obligations.ExampleWordsOfTheSpecDecode := by
  unfold Obligations.ExampleWordsOfTheSpecDecode
  decide

/-! ## Micro-op words (R98 to R100) -/

theorem fnField_eq (w : BitVec 16) : fnField w = BitVec.ofNat 4 (w.toNat / 2 ^ 12) :=
  congrArg (BitVec.ofNat 4) (Nat.shiftRight_eq_div_pow _ _)

theorem reservedField_eq_zero_iff (w : BitVec 16) : reservedField w = 0 ↔ w.toNat / 2 ^ 5 % 2 ^ 7 = 0 := by
  rw [← BitVec.toNat_inj]
  simp [reservedField, Nat.shiftRight_eq_div_pow]

theorem shamtField_eq_zero_iff (w : BitVec 16) : shamtField w = 0 ↔ w.toNat % 2 ^ 5 = 0 := by
  rw [← BitVec.toNat_inj]
  simp [shamtField]

section FunctionCode
variable {n : Nat}

/-- The codes 0xC..0xF name no function (R99, R100). -/
theorem aluFunction_of_ge (hlo : 12 ≤ n) (hhi : n < 16) (sh : BitVec 5) : aluFunction (BitVec.ofNat 4 n) sh = none := by
  interval_cases n <;> rfl

/-- The codes below 0xC name one (R99). -/
theorem aluFunction_of_lt (h : n < 12) (sh : BitVec 5) : ∃ r, aluFunction (BitVec.ofNat 4 n) sh = some r := by
  interval_cases n <;> exact ⟨_, rfl⟩

/-- The functions other than ROTR and SHR take no SHAMT (R98, R99). -/
theorem aluFunction_of_not_shift (h : n < 4 ∨ 6 ≤ n ∧ n < 12) (sh : BitVec 5) :
    ∃ i, aluFunction (BitVec.ofNat 4 n) sh = some (withoutShamt sh i) := by
  rcases h with hlt | ⟨hlo, hhi⟩
  · interval_cases n <;> exact ⟨_, rfl⟩
  · interval_cases n <;> exact ⟨_, rfl⟩

end FunctionCode

section MicroOpWord
variable {w : BitVec 16}

theorem decodeUop_of_reserved (h : 12 ≤ w.toNat / 2 ^ 12) :
    decodeUop w = .ok (.aluReserved (w.extractLsb' 12 2) (w.extractLsb' 0 12)) := by
  have hw : w.toNat < 2 ^ 16 := w.isLt
  unfold decodeUop
  rw [fnField_eq, aluFunction_of_ge h (by omega)]

theorem decodeUop_of_reservedBits (h : w.toNat / 2 ^ 12 < 12) (hmid : w.toNat / 2 ^ 5 % 2 ^ 7 ≠ 0) :
    decodeUop w = .error .aluReservedBits := by
  obtain ⟨r, hr⟩ := aluFunction_of_lt h (shamtField w)
  unfold decodeUop
  rw [fnField_eq, hr]
  exact if_neg (mt (reservedField_eq_zero_iff w).mp hmid)

theorem decodeUop_of_shamt (h : w.toNat / 2 ^ 12 < 4 ∨ 6 ≤ w.toNat / 2 ^ 12 ∧ w.toNat / 2 ^ 12 < 12)
    (hmid : w.toNat / 2 ^ 5 % 2 ^ 7 = 0) (hsh : w.toNat % 2 ^ 5 ≠ 0) : decodeUop w = .error .aluShamtNotTaken := by
  obtain ⟨i, hi⟩ := aluFunction_of_not_shift h (shamtField w)
  have taken : withoutShamt (shamtField w) i = .error .aluShamtNotTaken :=
    if_neg (mt (shamtField_eq_zero_iff w).mp hsh)
  unfold decodeUop
  rw [fnField_eq, hi, taken]
  exact if_pos ((reservedField_eq_zero_iff w).mpr hmid)

end MicroOpWord

/-- Settles O5: a step answers an issued micro-op word as its decoding says, and each class of malformed words has its
own decoding. -/
theorem reservedMicroOpsAreRefused : Obligations.ReservedMicroOpsAreRefused := by
  refine ⟨fun _ _ _ => rfl, fun s w hrst hu => ?_⟩
  dsimp only
  rw [step_microOp hrst hu]
  refine ⟨fun hfn => ?_, fun hfn hmid => ?_, fun hfn hmid h4 h5 hsh => ?_⟩
  · rw [decodeUop_of_reserved hfn]
    rfl
  · rw [decodeUop_of_reservedBits hfn hmid]
  · rw [decodeUop_of_shamt (by omega) hmid hsh]

/-! ## What a step takes off the host's channels (R73, R85, R86) -/

theorem absorbFrom_cmd {arg : BitVec 28} {got : List Byte} {s t : State} (h : absorbFrom arg got s = .next t) :
    t.cmd = s.cmd := by
  rcases absorbFrom_cases h with ⟨_, rfl⟩ | hp
  · rfl
  · rcases absorbPayload_cases hp with ⟨_, rfl⟩ | ⟨_, e, _, rfl⟩ <;> rfl

/-- An ABSORB takes what it still needs of the bytes offered, the oldest first. -/
theorem absorbFrom_din {arg : BitVec 28} {got : List Byte} {s t : State} (h : absorbFrom arg got s = .next t) :
    t.din = s.din.drop (payloadLength arg - got.length) := by
  rcases absorbFrom_cases h with ⟨_, rfl⟩ | hp
  · rfl
  · rcases absorbPayload_cases hp with ⟨_, rfl⟩ | ⟨_, e, _, rfl⟩ <;> rfl

/-- A FINALIZE takes nothing from either channel. -/
theorem execFinalize_channels {s t : State} (h : execFinalize s = .next t) : t.cmd = s.cmd ∧ t.din = s.din := by
  rcases execFinalize_cases h with ⟨_, rfl⟩ | ⟨_, e, _, ⟨_, rfl⟩ | ⟨_, rfl⟩⟩ <;> exact ⟨rfl, rfl⟩

theorem resume_cmd {f : InFlight} {s t : State} (h : resume f s = .next t) : t.cmd = s.cmd := by
  cases f with
  | absorb arg got => exact absorbFrom_cmd h
  | finalize => exact (execFinalize_channels h).1

/-- No instruction takes a word from the command channel: the step that accepts it has taken its own. -/
theorem exec_cmd {i : Instr} {s t : State} (h : exec i s = .next t) : t.cmd = s.cmd := by
  rcases exec_cases h with ⟨_, rfl⟩ | ⟨arg, _, ha⟩ | ⟨_, hf⟩ | ⟨_, _, _, _, code, rfl⟩ | ⟨_, y, rfl⟩
  · rfl
  · exact absorbFrom_cmd ha
  · exact (execFinalize_channels hf).1
  · rfl
  · rfl

/-- Of the instructions only an ABSORB takes payload bytes (R86). -/
theorem exec_din {i : Instr} {s t : State} (h : exec i s = .next t) :
    t.din = s.din ∨ ∃ arg, i = .absorb arg ∧ t.din = s.din.drop (payloadLength arg) := by
  rcases exec_cases h with ⟨_, rfl⟩ | ⟨arg, hi, ha⟩ | ⟨_, hf⟩ | ⟨_, _, _, _, code, rfl⟩ | ⟨_, y, rfl⟩
  · exact .inl rfl
  · exact .inr ⟨arg, hi, absorbFrom_din ha⟩
  · exact .inl (execFinalize_channels hf).2
  · exact .inl rfl
  · exact .inl rfl

/-- A FINALIZE in flight takes no payload byte, and an ABSORB only what it still lacks: din_ready is 1 then. -/
theorem resume_din {f : InFlight} {s t : State} (hrst : s.rst = false) (hf : s.inflight = some f)
    (h : resume f s = .next t) : (∃ k, t.din = s.din.drop k) ∧ (t.din = s.din ∨ s.dinReady = true) := by
  cases f with
  | absorb arg got =>
    have hdin : t.din = s.din.drop (payloadLength arg - got.length) := absorbFrom_din h
    refine ⟨⟨_, hdin⟩, ?_⟩
    by_cases hlack : got.length < payloadLength arg
    · exact .inr (by simpa [State.dinReady, hf, hrst] using hlack)
    · exact .inl (by rw [hdin, Nat.sub_eq_zero_of_le (Nat.le_of_not_lt hlack), List.drop_zero])
  | finalize =>
    have hdin : t.din = s.din := (execFinalize_channels h).2
    exact ⟨⟨0, hdin⟩, .inl hdin⟩

theorem cmdReady_iff (s : State) : s.cmdReady = true ↔ s.inflight = none ∧ s.rst = false := by
  simp [State.cmdReady, State.busy]

/-- Settles O46: a step takes the oldest word when it accepts a command, and no other step touches the channel. -/
theorem commandsAreAcceptedOnlyWhenReady : Obligations.CommandsAreAcceptedOnlyWhenReady := by
  refine fun s t => ⟨cmdReady_iff s, fun h => ?_⟩
  rcases step_cases h with ⟨_, rfl⟩ | ⟨hr, ⟨w, y, _, rfl⟩ | ⟨_, ⟨f, _, hres⟩ | ⟨hn, ⟨w, rest, hc, hex⟩ | ⟨_, rfl⟩⟩⟩⟩
  · exact .inl rfl
  · exact .inl rfl
  · exact .inl (resume_cmd hres)
  · have hcmd : t.cmd = rest := by rw [exec_cmd hex, takeCommand_cmd, hc, List.tail_cons]
    exact .inr ⟨(cmdReady_iff s).mpr ⟨hn, hr⟩, w, hcmd ▸ hc⟩
  · exact .inl rfl

/-- Settles O47: payload bytes are taken by an ABSORB in flight that lacks some, or by one that the step accepts. -/
theorem payloadBytesAreTakenOnlyByAbsorb : Obligations.PayloadBytesAreTakenOnlyByAbsorb := by
  intro s t h
  rcases step_cases h with ⟨_, rfl⟩ | ⟨hr, ⟨w, y, _, rfl⟩ | ⟨_, ⟨f, hf, hres⟩ | ⟨hn, ⟨w, rest, hc, hex⟩ | ⟨_, rfl⟩⟩⟩⟩
  · exact ⟨⟨0, rfl⟩, .inl rfl⟩
  · exact ⟨⟨0, rfl⟩, .inl rfl⟩
  · obtain ⟨hdrop, hkept | hready⟩ := resume_din hr hf hres
    · exact ⟨hdrop, .inl hkept⟩
    · exact ⟨hdrop, .inr (.inl hready)⟩
  · rcases exec_din hex with hkept | ⟨arg, hw, hdin⟩
    · exact ⟨⟨0, hkept⟩, .inl hkept⟩
    · exact ⟨⟨_, hdin⟩, .inr (.inr ⟨(cmdReady_iff s).mpr ⟨hn, hr⟩, w, rest, arg, hc, congrArg Except.ok hw⟩)⟩
  · exact ⟨⟨0, rfl⟩, .inl rfl⟩

/-- Settles O56: the invariant reads only the engine, the command in flight and `faulted`; reset alone writes them, and
the reset engine meets the invariant. -/
theorem everyHostMoveKeepsTheInvariant : Obligations.EveryHostMoveKeepsTheInvariant := by
  intro s hs
  have reset : s.assertReset.Inv := ⟨reset_inv, rfl, fun herr => absurd herr Bool.false_ne_true⟩
  exact ⟨fun _ => hs, fun _ => hs, fun _ => hs, reset, hs, hs⟩

/-! ## The pieces of a long absorb (R105, R106) -/

theorem splitPayload_flatten (k : Nat) (p : List Byte) : (splitPayload k p).flatten = p := by
  induction k generalizing p with
  | zero => simp [splitPayload]
  | succ k ih => rw [splitPayload, List.flatten_cons, ih, List.take_append_drop]

theorem splitPayload_length_le {k : Nat} {p : List Byte} (h : p.length ≤ (k + 1) * maxPayload) :
    ∀ q ∈ splitPayload k p, q.length ≤ maxPayload := by
  induction k generalizing p with
  | zero => simpa [splitPayload] using h
  | succ k ih =>
    intro q hq
    rcases List.mem_cons.mp hq with rfl | hq
    · exact List.length_take_le _ _
    · refine ih ?_ q hq
      rw [Nat.succ_mul] at h
      simpa using h

theorem absorbPieces_flatten (p : List Byte) : (absorbPieces p).flatten = p := splitPayload_flatten _ p

/-- Each piece fits one command (R13, R106). -/
theorem absorbPieces_length_lt {p : List Byte} : ∀ q ∈ absorbPieces p, q.length < 2 ^ 28 := by
  have hfit : p.length ≤ ((p.length - 1) / maxPayload + 1) * maxPayload := by
    unfold maxPayload
    omega
  intro q hq
  have hlen : q.length ≤ maxPayload := splitPayload_length_le hfit q hq
  unfold maxPayload at hlen
  omega

/-- A payload that fits one command is one piece (R105). -/
theorem absorbPieces_of_lt {p : List Byte} (h : p.length < 2 ^ 28) : absorbPieces p = [p] := by
  have hk : (p.length - 1) / maxPayload = 0 := Nat.div_eq_of_lt (by unfold maxPayload; omega)
  rw [absorbPieces, hk, splitPayload]

theorem absorbWord_toNat {n : Nat} (h : n < 2 ^ 28) : (absorbWord n).toNat = 2 ^ 29 + n := by
  have hn : (BitVec.ofNat 32 n).toNat = n := by rw [BitVec.toNat_ofNat]; omega
  rw [absorbWord, BitVec.toNat_or, hn]
  exact (Nat.two_pow_add_eq_or_of_lt (i := 29) (by omega) 1).symm

/-- The word of an ABSORB of `n` bytes decodes to it (R91, R105). -/
theorem decodeCmd_absorbWord {n : Nat} (h : n < 2 ^ 28) : decodeCmd (absorbWord n) = .absorb (BitVec.ofNat 28 n) := by
  have hop : opField (absorbWord n) = 2 := by
    rw [opField_eq, absorbWord_toNat h, show (2 ^ 29 + n) / 2 ^ 28 = 2 by omega]
    rfl
  have harg : argField (absorbWord n) = BitVec.ofNat 28 n := by
    rw [argField_eq, absorbWord_toNat h, show (2 ^ 29 + n) % 2 ^ 28 = n by omega]
  simp [decodeCmd, hop, harg]

/-- Settles O58: the pieces of `splitPayload` joined are what is split, and the words of such pieces decode. -/
theorem longAbsorbSplitsIntoLegalAbsorbs : Obligations.LongAbsorbSplitsIntoLegalAbsorbs := fun p =>
  ⟨absorbPieces_flatten p, fun q hq => Nat.le_pred_of_lt (absorbPieces_length_lt q hq), absorbPieces_of_lt,
    fun q hq => congrArg Except.ok (decodeCmd_absorbWord (absorbPieces_length_lt q hq))⟩

/-! ## What an engine holds of a message, absorbed piece by piece (R34, R36, R119 to R122, R134) -/

/-- INIT leaves an engine that has absorbed nothing. -/
theorem absorbed_init_nil (e : Engine) : absorbed e.init [] = e.init := by
  simp [absorbed, Engine.init, Engine.setOccupancy, compressBlocks, cellsFrom]

section Tail
variable (m p : List Byte)

/-- The bytes after the last whole block of `m`, and `p`: what is left of `m ++ p` after the whole blocks of `m`. -/
theorem tail_append : m.drop (64 * (m.length / 64)) ++ p = (m ++ p).drop (64 * (m.length / 64)) :=
  (List.drop_append_of_le_length (by omega)).symm

theorem length_append_tail :
    (m ++ p).length = 64 * (m.length / 64) + (m.drop (64 * (m.length / 64)) ++ p).length := by
  simp only [List.length_append, List.length_drop]
  omega

/-- The whole blocks of `m ++ p` are those of `m`, then those of the rest. -/
theorem blockCount_append :
    (m ++ p).length / 64 = m.length / 64 + (m.drop (64 * (m.length / 64)) ++ p).length / 64 := by
  have hlen := length_append_tail m p
  omega

/-- Compressing the whole blocks of `m ++ p`: first those of `m`, then those of the rest. -/
theorem compressBlocks_message_append (H : HashState) :
    compressBlocks ((m ++ p).length / 64) H (m ++ p) =
      compressBlocks ((m.drop (64 * (m.length / 64)) ++ p).length / 64) (compressBlocks (m.length / 64) H m)
        (m.drop (64 * (m.length / 64)) ++ p) := by
  rw [blockCount_append, compressBlocks_add, compressBlocks_append _ _ _ _ (by omega), ← tail_append]

end Tail

/-- Absorbing `p` after `m` is absorbing `m ++ p` (R134). -/
theorem absorbed_absorbed (e : Engine) (m p : List Byte) :
    absorbed (absorbed e m) ((absorbed e m).buffered ++ p) = absorbed e (m ++ p) := by
  have hmod : (m ++ p).length % 64 = (m.drop (64 * (m.length / 64)) ++ p).length % 64 := by
    have hlen := length_append_tail m p
    omega
  rw [absorbed_buffered]
  unfold absorbed
  rw [compressBlocks_message_append m p, hmod, blockCount_append m p, Nat.mul_add, ← List.drop_drop, ← tail_append,
    BitVec.ofNat_add, BitVec.add_assoc]

/-- TOTAL counts every byte absorbed since the last INIT, modulo 2^64 (R49, R133). -/
theorem absorbed_init_total (e : Engine) (m : List Byte) :
    (absorbed e.init m).total = BitVec.ofNat 64 m.length := by
  apply BitVec.eq_of_toNat_eq
  simp [Engine.total, absorbed]
  omega

theorem absorbed_init_bitLength (e : Engine) (m : List Byte) :
    (absorbed e.init m).bitLength = BitVec.ofNat 64 (8 * m.length) := by
  rw [Engine.bitLength, absorbed_init_total, Nat.mul_comm, BitVec.ofNat_mul]
  rfl

/-- The padding that follows a message with `r` bytes after its last whole block: the marker, the fewest zeros that
leave 8 bytes of a block, and the length. -/
def sha256Padding (r : Nat) (v : BitVec 64) : List Byte := [0x80] ++ zeros ((119 - r) % 64) ++ be64Bytes v

theorem sha256Padded_eq (m : List Byte) :
    sha256Padded m = m ++ sha256Padding (m.length % 64) (BitVec.ofNat 64 (8 * m.length)) := by
  simp [sha256Padded, sha256Padding]

/-- The first block of `k + 1`, split off. -/
theorem compressBlocks_block {blk : List Byte} (hblk : blk.length = 64) (k : Nat) (H : HashState) (rest : List Byte) :
    compressBlocks (k + 1) H (blk ++ rest) = compressBlocks k (compress H blk) rest := by
  rw [compressBlocks, List.take_left' hblk, List.drop_left' hblk]

/-- FINALIZE's padding blocks are SHA-256's padding of what is buffered, compressed block by block (R124, R125). -/
theorem padAndCompress_eq {msg : List Byte} (hmsg : msg.length < 64) (H : HashState) (v : BitVec 64) :
    padAndCompress H msg v = compressBlocks ((msg ++ sha256Padding msg.length v).length / 64) H
      (msg ++ sha256Padding msg.length v) := by
  by_cases hshort : msg.length < 56
  · have hz : (119 - msg.length) % 64 = 55 - msg.length := by omega
    have hpad : msg ++ sha256Padding msg.length v = markedMessage msg (55 - msg.length) ++ be64Bytes v ++ [] := by
      simp [sha256Padding, markedMessage, hz]
    have hblk : (markedMessage msg (55 - msg.length) ++ be64Bytes v).length = 64 := by
      rw [List.length_append, markedMessage_length, be64Bytes_length]
      omega
    rw [padAndCompress_one hshort, hpad, List.length_append, hblk]
    exact (compressBlocks_block hblk 0 H []).symm
  · have hz : zeros ((119 - msg.length) % 64) = zeros (63 - msg.length) ++ zeros 56 := by
      rw [zeros, zeros, zeros, List.replicate_append_replicate]
      congr 1
      omega
    have hpad : msg ++ sha256Padding msg.length v =
        markedMessage msg (63 - msg.length) ++ (zeros 56 ++ be64Bytes v ++ []) := by
      simp [sha256Padding, markedMessage, hz]
    have hfirst : (markedMessage msg (63 - msg.length)).length = 64 := by
      rw [markedMessage_length]
      omega
    have hlast : (zeros 56 ++ be64Bytes v).length = 64 := by simp
    rw [padAndCompress_two (Nat.le_of_not_lt hshort), hpad, List.length_append, hfirst, List.length_append, hlast]
    exact ((compressBlocks_block hfirst 1 H _).trans (compressBlocks_block hlast 0 _ [])).symm

/-- The engine after INIT, the message `m`, and FINALIZE (R123, R129). -/
def digested (e : Engine) (m : List Byte) : Engine :=
  { absorbed e.init m with
    h := padAndCompress (absorbed e.init m).h (absorbed e.init m).buffered (absorbed e.init m).bitLength
    phase := .consumed }

theorem finalize_absorbed_init {e : Engine} (h : e.Inv) (m : List Byte) :
    (absorbed e.init m).finalize = .ok (digested e m) :=
  finalize_eq (absorbed_inv (init_inv h) m)

/-- The digest of such an engine is SHA-256 of the message: the whole blocks of the padded message are those absorbed,
and its last one or two are FINALIZE's. -/
theorem digestBytes_digested (e : Engine) (m : List Byte) : digestBytes (digested e m).h = sha256 m := by
  have htail : (m.drop (64 * (m.length / 64))).length = m.length % 64 := tail_length m
  have hlast := padAndCompress_eq (htail ▸ Nat.mod_lt m.length (by decide)) (compressBlocks (m.length / 64) iv m)
    (BitVec.ofNat 64 (8 * m.length))
  rw [htail] at hlast
  rw [sha256, sha256Padded_eq, compressBlocks_message_append, ← hlast, digested, absorbed_buffered,
    absorbed_init_bitLength]
  rfl

/-! ## The run of a message (R115, R135) -/

/-- An ABSORB whose whole payload heads the bytes offered takes it in one step. -/
theorem execAbsorb_of_offered {arg : BitVec 28} {p after : List Byte} {s : State} (hp : p.length = arg.toNat)
    (hdin : s.din = p ++ after) : execAbsorb arg s = absorbPayload p { s with din := after } := by
  have htaken : payloadTaken arg [] s = p := by simp [payloadTaken, hdin, List.take_left' hp]
  have hrest : acceptPayload arg [] s = { s with din := after } := by
    simp [acceptPayload, hdin, List.drop_left' hp]
  rw [execAbsorb, absorbFrom, htaken, hrest, payloadLength_eq, if_neg (by omega)]

/-- In phase ACTIVE a good engine absorbs the payload (R119). -/
theorem absorbPayload_of_active {s : State} (h : s.engine.Inv) (hactive : s.engine.phase = .active) (p : List Byte) :
    absorbPayload p s = .next (s.complete (absorbed s.engine (s.engine.buffered ++ p))) := by
  simp [absorbPayload, hactive, absorb_eq h]

/-- In phase ACTIVE, the host ready, FINALIZE completes with its digest (R123, R128). -/
theorem execFinalize_of_active {s : State} {e : Engine} (hactive : s.engine.phase = .active)
    (he : s.engine.finalize = .ok e) (hready : s.rspReady = true) :
    execFinalize s = .next ((s.respond (digestBytes e.h)).complete e) := by
  simp [execFinalize, hactive, he, hready]

/-- The machine that has absorbed the bytes `m` since an INIT run in state `s`, with these words and bytes offered. -/
def midMessage (s : State) (m : List Byte) (cmd : List (BitVec 32)) (din : List Byte) : State :=
  { s with engine := absorbed s.engine.init m, inflight := none, cmd := cmd, din := din }

/-- The machine that has emitted the digest of the message `m` since an INIT run in state `s`. -/
def messageDigested (s : State) (m din : List Byte) : State :=
  { s with
    engine := digested s.engine m
    inflight := none
    cmd := []
    din := din
    responses := s.responses ++ [rspWord (sha256 m)] }

section Message
variable {s : State} (hinv : s.Inv) (hready : s.Ready)
include hready

theorem midMessage_ready (m : List Byte) (cmd : List (BitVec 32)) (din : List Byte) :
    (midMessage s m cmd din).Ready := by
  obtain ⟨hrst, huop, _⟩ := hready
  exact ⟨hrst, huop, rfl⟩

theorem step_init {cmd : List (BitVec 32)} (hcmd : s.cmd = initWord :: cmd) :
    step s = .next (midMessage s [] cmd s.din) := by
  have hdecode : decodeCmd initWord = .init := rfl
  rw [step_command hready hcmd, hdecode, midMessage, absorbed_init_nil]
  rfl

include hinv

theorem step_absorb (m : List Byte) {p : List Byte} (hp : p.length < 2 ^ 28) (cmd : List (BitVec 32))
    (din : List Byte) :
    step (midMessage s m (absorbWord p.length :: cmd) (p ++ din)) = .next (midMessage s (m ++ p) cmd din) := by
  have hlen : p.length = (BitVec.ofNat 28 p.length).toNat := by rw [BitVec.toNat_ofNat, Nat.mod_eq_of_lt hp]
  rw [step_command (midMessage_ready hready _ _ _) rfl, decodeCmd_absorbWord hp, exec,
    execAbsorb_of_offered hlen rfl, absorbPayload_of_active (absorbed_inv (init_inv hinv.1) m) rfl]
  rw [midMessage, midMessage, absorbed_absorbed]
  rfl

theorem step_finalize (hrsp : s.rspReady = true) (m din : List Byte) :
    step (midMessage s m [finalizeWord] din) = .next (messageDigested s m din) := by
  have hrun := execFinalize_of_active (s := midMessage s m [] din) rfl (finalize_absorbed_init hinv.1 m) hrsp
  rw [digestBytes_digested] at hrun
  exact (step_command (midMessage_ready hready m _ din) rfl).trans hrun

end Message

theorem run_succ {s s' : State} (h : step s = .next s') (k : Nat) :
    Host.Core.run core (k + 1) s = Host.Core.run core k s' := by
  have hcore : core.step s = .next s' := h
  simp only [Host.Core.run, hcore]

/-- The ABSORBs of the payloads `ps` run one a step. -/
theorem run_absorbs {s : State} (hinv : s.Inv) (hready : s.Ready) {ps : List (List Byte)}
    (hps : ∀ p ∈ ps, p.length < 2 ^ 28) (k : Nat) (m : List Byte) (cmd : List (BitVec 32)) (din : List Byte) :
    Host.Core.run core (ps.length + k)
        (midMessage s m (ps.map (fun p => absorbWord p.length) ++ cmd) (ps.flatten ++ din)) =
      Host.Core.run core k (midMessage s (m ++ ps.flatten) cmd din) := by
  induction ps generalizing m with
  | nil => simp
  | cons p ps ih =>
    obtain ⟨hp, hps⟩ := List.forall_mem_cons.mp hps
    have hstep := step_absorb hinv hready m hp (ps.map (fun p => absorbWord p.length) ++ cmd) (ps.flatten ++ din)
    rw [List.length_cons, Nat.add_right_comm, List.map_cons, List.cons_append, List.flatten_cons, List.append_assoc,
      run_succ hstep, ih hps, List.append_assoc]

/-- From any good ready state INIT, the ABSORBs of the payloads `ps` and FINALIZE run one a step, and the machine has
emitted the digest of the payloads joined, however they split the message (R135). -/
theorem run_message {s : State} {ps : List (List Byte)} {after : List Byte} (hinv : s.Inv) (hready : s.Ready)
    (hrsp : s.rspReady = true) (hps : ∀ p ∈ ps, p.length < 2 ^ 28)
    (hcmd : s.cmd = initWord :: (ps.map (fun p => absorbWord p.length) ++ [finalizeWord]))
    (hdin : s.din = ps.flatten ++ after) :
    Host.Core.run core (ps.length + 2) s = .next (messageDigested s ps.flatten after) := by
  calc Host.Core.run core (ps.length + 2) s
      = Host.Core.run core (ps.length + 1) (midMessage s [] (ps.map (fun p => absorbWord p.length) ++ [finalizeWord])
          (ps.flatten ++ after)) := by rw [run_succ (step_init hready hcmd), hdin]
    _ = Host.Core.run core 1 (midMessage s ps.flatten [finalizeWord] after) := run_absorbs hinv hready hps 1 [] _ _
    _ = .next (messageDigested s ps.flatten after) := run_succ (step_finalize hinv hready hrsp _ _) 0

/-! ## The pseudo-command DIGEST (R108) -/

/-- Offering commands one by one appends their words and their payloads to the two channels. -/
theorem foldl_offer (rs : List Request) (s : State) :
    rs.foldl State.offer s =
      { s with cmd := s.cmd ++ rs.map Request.word, din := s.din ++ rs.flatMap Request.payload } := by
  induction rs generalizing s with
  | nil => simp
  | cons r rs ih => simp [ih, State.offer, State.offerCommand, State.offerData]

theorem absorbRequests_words (m : List Byte) :
    (absorbRequests m).map Request.word = (absorbPieces m).map (fun p => absorbWord p.length) := by
  simp [absorbRequests]

theorem absorbRequests_payloads (m : List Byte) : (absorbRequests m).flatMap Request.payload = m := by
  rw [absorbRequests, List.flatMap_map, List.flatMap_id', absorbPieces_flatten]

/-- What the host has offered once it has offered the line `DIGEST m` on empty channels. -/
theorem offerScript_digest {s : State} (hcmd : s.cmd = []) (hdin : s.din = []) (m : List Byte) :
    s.offerScript [.digest m] =
      { s with
        cmd := initWord :: ((absorbPieces m).map (fun p => absorbWord p.length) ++ [finalizeWord])
        din := m } := by
  rw [State.offerScript, foldl_offer]
  simp [ScriptLine.requests, hcmd, hdin, absorbRequests_words, absorbRequests_payloads]

/-- Settles O60: the line is offered as INIT, the pieces of `m` and FINALIZE, which is the run of a message. -/
theorem digestPseudoCommandHashesTheMessage : Obligations.DigestPseudoCommandHashesTheMessage := by
  intro s m hinv hready hrsp hcmd hdin _
  have hflat : (absorbPieces m).flatten = m := absorbPieces_flatten m
  have hrun := run_message (s := s.offerScript [.digest m]) (ps := absorbPieces m) (after := [])
  rw [offerScript_digest hcmd hdin] at hrun ⊢
  refine ⟨_, hrun hinv hready hrsp absorbPieces_length_lt rfl (by simp [hflat]), ?_, rfl, rfl, ?_⟩
  · rw [hflat]
    rfl
  · obtain ⟨hrst, huop, _⟩ := hready
    exact ⟨⟨hrst, huop, rfl⟩, rfl⟩

end Sys2Proof.Proofs
end

section
/-! The commands' family: every step keeps the machine's invariant (`step_inv`); what an ABSORB with its payload offered
leaves, as one function of the state that adds up over a split payload (`afterAbsorb`); and what FINALIZE emits. -/

namespace Sys2Proof.Proofs

open Sys2Proof.Machine Sys2Proof.Laws

/-! ## The invariant (R132, R218) -/

theorem complete_inv {s : State} {e : Engine} (he : e.Inv) (herr : e.err = true → s.faulted = true) :
    (s.complete e).Inv := ⟨he, rfl, herr⟩

theorem raise_inv {s : State} (h : s.engine.Inv) (code : CmdErrorCode) : (s.raise code).Inv :=
  ⟨recordError_inv h code, rfl, fun _ => rfl⟩

theorem absorb_inv {e e' : Engine} {p : List Byte} (h : e.Inv) (ha : e.absorb p = .ok e') : e'.Inv := by
  rw [absorb_eq h] at ha
  cases ha
  exact absorbed_inv h _

/-- FINALIZE leaves what the engine's invariant speaks of (R129, R131, log entry 8). -/
theorem finalize_inv {e e' : Engine} (h : e.Inv) (hf : e.finalize = .ok e') : e'.Inv := by
  rw [finalize_eq h] at hf
  cases hf
  exact h

/-- An ABSORB that waits lacks payload, and one that has it all absorbs it or records an error. -/
theorem absorbFrom_inv {arg : BitVec 28} {got : List Byte} {s t : State} (hs : s.Inv)
    (h : absorbFrom arg got s = .next t) : t.Inv := by
  obtain ⟨heng, _, herr⟩ := hs
  rcases absorbFrom_cases h with ⟨hshort, rfl⟩ | hp
  · exact ⟨heng, decide_eq_true hshort, herr⟩
  · rcases absorbPayload_cases hp with ⟨_, rfl⟩ | ⟨_, e, he, rfl⟩
    · exact raise_inv heng _
    · exact complete_inv (absorb_inv heng he) fun hset => herr ((absorb_keeps he).2.1 ▸ hset)

/-- A FINALIZE that waits does so in phase ACTIVE. -/
theorem execFinalize_inv {s t : State} (hs : s.Inv) (h : execFinalize s = .next t) : t.Inv := by
  obtain ⟨heng, _, herr⟩ := hs
  rcases execFinalize_cases h with ⟨_, rfl⟩ | ⟨hactive, e, he, ⟨_, rfl⟩ | ⟨_, rfl⟩⟩
  · exact raise_inv heng _
  · exact complete_inv (finalize_inv heng he) fun hset => herr ((finalize_keeps he).2.1 ▸ hset)
  · exact ⟨heng, decide_eq_true hactive, herr⟩

theorem resume_inv {f : InFlight} {s t : State} (hs : s.Inv) (h : resume f s = .next t) : t.Inv := by
  cases f with
  | absorb arg got => exact absorbFrom_inv hs h
  | finalize => exact execFinalize_inv hs h

theorem exec_inv {i : Instr} {s t : State} (hs : s.Inv) (h : exec i s = .next t) : t.Inv := by
  have ⟨heng, _, herr⟩ := hs
  rcases exec_cases h with ⟨_, rfl⟩ | ⟨arg, _, ha⟩ | ⟨_, hf⟩ | ⟨_, _, _, _, code, rfl⟩ | ⟨_, y, rfl⟩
  · exact complete_inv (init_inv heng) herr
  · exact absorbFrom_inv hs ha
  · exact execFinalize_inv hs hf
  · exact raise_inv heng code
  · exact hs

/-- Reset puts the engine at its reset values and abandons the command in flight (R240, R241). -/
theorem hardwareReset_inv (s : State) : s.hardwareReset.Inv :=
  ⟨reset_inv, rfl, fun herr => absurd herr Bool.false_ne_true⟩

theorem step_inv {s t : State} (hs : s.Inv) (h : step s = .next t) : t.Inv := by
  rcases step_cases h with ⟨_, rfl⟩ | ⟨_, ⟨w, y, _, rfl⟩ | ⟨_, ⟨f, _, hres⟩ | ⟨_, ⟨w, rest, _, hex⟩ | ⟨_, rfl⟩⟩⟩⟩
  · exact hardwareReset_inv s
  · exact hs
  · exact resume_inv hs hres
  · exact exec_inv (s := s.takeCommand) hs hex
  · exact hs

/-- Settles O55: the invariant holds after a reset, a command going on, and a command accepted; no other step writes
what it speaks of. -/
theorem everyStepKeepsTheInvariant : Obligations.EveryStepKeepsTheInvariant := fun _ _ hs h => step_inv hs h

/-- Settles O54: the reset state is what a reset makes of itself. -/
theorem resetStateMeetsTheInvariant : Obligations.ResetStateMeetsTheInvariant := hardwareReset_inv State.reset

/-! ## ABSORB with its payload offered (R119 to R122, R133, R134) -/

/-- The machine after an ABSORB of `k` bytes, all of them offered, in phase ACTIVE. -/
def afterAbsorb (s : State) (k : Nat) : State :=
  { s with
    engine := absorbed s.engine (s.engine.buffered ++ s.din.take k)
    inflight := none
    din := s.din.drop k }

/-- Absorbing `k` bytes and then `l` is absorbing `k + l` (R134). -/
theorem afterAbsorb_afterAbsorb (s : State) (k l : Nat) : afterAbsorb (afterAbsorb s k) l = afterAbsorb s (k + l) := by
  simp only [afterAbsorb, absorbed_absorbed, List.append_assoc, List.take_add, List.drop_drop]

theorem toNat_ofNat_arg {k : Nat} (hk : k < 2 ^ 28) : (BitVec.ofNat 28 k).toNat = k := by
  rw [BitVec.toNat_ofNat, Nat.mod_eq_of_lt hk]

/-- An ABSORB that is accepted leaves a command in flight or none whatever was in flight. -/
theorem exec_absorb_of_inflight (s : State) (f : Option InFlight) (n : BitVec 28) :
    exec (.absorb n) { s with inflight := f } = exec (.absorb n) s := rfl

section Offered
variable {s : State} (hinv : s.engine.Inv) (hactive : s.engine.phase = .active)
include hinv hactive

theorem exec_absorb_of_offered {n : BitVec 28} (hn : n.toNat ≤ s.din.length) :
    exec (.absorb n) s = .next (afterAbsorb s n.toNat) := by
  have hlen : (s.din.take n.toNat).length = n.toNat := List.length_take_of_le hn
  have htaken : exec (.absorb n) s = absorbPayload (s.din.take n.toNat) { s with din := s.din.drop n.toNat } :=
    execAbsorb_of_offered hlen (List.take_append_drop _ _).symm
  exact htaken.trans (absorbPayload_of_active (s := { s with din := s.din.drop n.toNat }) hinv hactive _)

/-- An ABSORB of `k` bytes leaves a good engine in phase ACTIVE, so another may follow it. -/
theorem exec_absorb_afterAbsorb {k : Nat} {n : BitVec 28} (hn : k + n.toNat ≤ s.din.length) :
    exec (.absorb n) (afterAbsorb s k) = .next (afterAbsorb s (k + n.toNat)) := by
  have hoffered : n.toNat ≤ (afterAbsorb s k).din.length := by
    simp only [afterAbsorb, List.length_drop]
    omega
  have hinv' : (afterAbsorb s k).engine.Inv := absorbed_inv hinv _
  rw [exec_absorb_of_offered hinv' hactive hoffered, afterAbsorb_afterAbsorb]

/-- An ABSORB may be cut after `k` bytes of its payload (R134). -/
theorem exec_absorb_split {k : Nat} {n : BitVec 28} (hk : k ≤ n.toNat) (hn : n.toNat ≤ s.din.length) :
    exec (.absorb n) s = exec (.absorb (BitVec.ofNat 28 (n.toNat - k))) (afterAbsorb s k) := by
  have hrest : (BitVec.ofNat 28 (n.toNat - k)).toNat = n.toNat - k := toNat_ofNat_arg (by omega)
  have hsum : k + (n.toNat - k) = n.toNat := Nat.add_sub_cancel' hk
  rw [exec_absorb_of_offered hinv hactive hn, exec_absorb_afterAbsorb hinv hactive (by omega), hrest, hsum]

end Offered

/-- Settles O31: both ways leave the machine after an ABSORB of `n + n'` bytes. -/
theorem absorbIsInvariantUnderChunking : Obligations.AbsorbIsInvariantUnderChunking := by
  intro s n n' hinv hactive hfit hoffered
  refine ⟨_, _, exec_absorb_of_offered hinv hactive (by omega), exec_absorb_afterAbsorb hinv hactive hoffered, ?_⟩
  have hsum : (BitVec.ofNat 28 (n.toNat + n'.toNat)).toNat = n.toNat + n'.toNat := toNat_ofNat_arg hfit
  rw [exec_absorb_of_offered hinv hactive (by omega), hsum]

/-- Fewer than 64 bytes are kept, and nothing is compressed (R120, R122). -/
theorem absorbed_of_short {m : List Byte} (e : Engine) (hm : m.length < 64) :
    (absorbed e m).h = e.h ∧ (absorbed e m).len = e.len ∧ (absorbed e m).bufcnt.toNat = m.length ∧
      (absorbed e m).buffered = m := by
  simp [absorbed, Engine.buffered, compressBlocks, Nat.div_eq_of_lt hm, Nat.mod_eq_of_lt hm]

/-- A full buffer is compressed and emptied (R120). -/
theorem absorbed_of_block {m : List Byte} (e : Engine) (hm : m.length = 64) :
    (absorbed e m).h = compress e.h m ∧ (absorbed e m).len = e.len + 64 ∧ (absorbed e m).bufcnt = 0 ∧
      (absorbed e m).buffered = [] := by
  have htake : m.take 64 = m := List.take_of_length_le hm.le
  have hdrop : m.drop 64 = [] := List.drop_of_length_le hm.le
  simp [absorbed, Engine.buffered, cellsFrom, hm, compressBlocks, htake, hdrop]

/-- Settles O28: a short top-up is an ABSORB of fewer than 64 bytes in all, and a longer one is the ABSORB of the bytes
up to the block's end, which compresses that block, and then of the rest. -/
theorem absorbTopsUpAPartialBuffer : Obligations.AbsorbTopsUpAPartialBuffer := by
  intro s n hinv hactive _ hoffered
  dsimp only
  have hB : s.engine.buffered.length = s.engine.bufcnt.toNat := buffered_length hinv
  have hroom : s.engine.bufcnt.toNat + (64 - s.engine.bufcnt.toNat) = 64 := Nat.add_sub_cancel' (bufcnt_lt _).le
  generalize 64 - s.engine.bufcnt.toNat = room at hroom ⊢
  refine ⟨fun hshort => ⟨_, exec_absorb_of_offered hinv hactive hoffered, ?_⟩, fun hfull => ?_⟩
  · have hlen : (s.engine.buffered ++ s.din.take n.toNat).length = s.engine.bufcnt.toNat + n.toNat := by
      rw [List.length_append, hB, List.length_take_of_le hoffered]
    obtain ⟨hh, hlen', hcnt, hbuffered⟩ := absorbed_of_short s.engine (hlen.trans_lt hshort)
    exact ⟨hcnt.trans hlen, hbuffered, hh, hlen'⟩
  · have hcut : room ≤ n.toNat := by omega
    have hblock : (s.engine.buffered ++ s.din.take room).length = 64 := by
      rw [List.length_append, hB, List.length_take_of_le (hcut.trans hoffered), hroom]
    rw [List.take_take, Nat.min_eq_left hcut]
    obtain ⟨hh, hlen, hcnt, hbuffered⟩ := absorbed_of_block s.engine hblock
    have hrest := exec_absorb_split hinv hactive hcut hoffered
    exact ⟨(afterAbsorb s room).engine, hh, hlen, hcnt, hbuffered,
      hrest.trans (exec_absorb_of_inflight (afterAbsorb s room) s.inflight _).symm⟩

/-- TOTAL after an absorb of `m`, the buffered bytes included: LEN and every byte of `m` (R49). -/
theorem absorbed_total (e : Engine) (m : List Byte) : (absorbed e m).total = e.len + BitVec.ofNat 64 m.length := by
  apply BitVec.eq_of_toNat_eq
  simp [Engine.total, absorbed]
  omega

/-- Settles O30: what is absorbed is the buffered bytes, which BUFCNT counts, and the `n` of the payload. -/
theorem totalCountsEveryByteAbsorbed : Obligations.TotalCountsEveryByteAbsorbed := by
  refine ⟨fun s n hinv hactive hoffered => ?_, fun s => ⟨_, rfl, rfl⟩⟩
  refine ⟨_, exec_absorb_of_offered hinv hactive hoffered, ?_⟩
  have htotal : (afterAbsorb s n.toNat).engine.total = _ := absorbed_total _ _
  rw [htotal, List.length_append, buffered_length hinv, List.length_take_of_le hoffered, BitVec.ofNat_add,
    BitVec.ofNat_toNat, BitVec.ofNat_toNat, ← BitVec.add_assoc]
  rfl

/-! ## FINALIZE in phase ACTIVE, the host ready (R123 to R130) -/

/-- Settles O34: what FINALIZE leaves of a good engine is its buffered bytes padded and compressed, and BUFCNT counts
them. -/
theorem finalizePadsCompressesAndEmitsTheDigest : Obligations.FinalizePadsCompressesAndEmitsTheDigest := by
  intro s hinv hactive hrsp R bitlen msg h
  have hh : padAndCompress s.engine.h s.engine.buffered s.engine.bitLength = h := by
    rw [padAndCompress, buffered_length hinv]
    rfl
  have hrun := execFinalize_of_active hactive (finalize_eq hinv) hrsp
  rw [hh] at hrun
  exact ⟨_, hrun, rfl, rfl, rfl, rfl⟩

/-- The block of the empty message: the marker and zeros, its bit length being 0 (R130). -/
theorem padAndCompress_empty (H : HashState) : padAndCompress H [] 0 = compress H (0x80 :: List.replicate 63 0) := by
  have hblock : markedMessage [] 55 ++ be64Bytes 0 = 0x80 :: List.replicate 63 0 := by decide
  rw [padAndCompress_one (by decide), ← hblock]
  rfl

/-- An engine with nothing buffered finalizes whatever BUF holds. -/
theorem finalize_of_bufcnt_zero {e : Engine} (h : e.bufcnt = 0) :
    e.finalize = .ok { e with h := padAndCompress e.h [] e.bitLength, phase := .consumed } := by
  unfold Engine.finalize
  rw [h]
  rfl

set_option maxRecDepth 2048 in
/-- The published digest of the empty message, computed by the model (R130). -/
theorem compress_iv_empty_digest : rspWord (digestBytes (compress iv (0x80 :: List.replicate 63 0))) =
    0xe3b0c44298fc1c149afbf4c8996fb92427ae41e4649b934ca495991b7852b855 := by decide

/-- Settles O37: nothing is buffered and TOTAL is 0, so FINALIZE compresses the empty message's block. -/
theorem emptyMessageHasTheKnownDigest : Obligations.EmptyMessageHasTheKnownDigest := by
  intro s hh hlen hcnt hactive hrsp
  have hbits : s.engine.bitLength = 0 := by simp [Engine.bitLength, Engine.total, hlen, hcnt]
  have hfin := finalize_of_bufcnt_zero hcnt
  rw [hh, hbits, padAndCompress_empty] at hfin
  refine ⟨_, execFinalize_of_active hactive hfin hrsp, rfl, ?_⟩
  rw [complete_responses, respond_responses, compress_iv_empty_digest]

/-! ## The step, and the run of a message (R115, R135) -/

/-- Settles O51: the model's step on a ready machine with a word offered, and on one with a micro-op issued. -/
theorem stepRunsTheDecodedInstruction : Obligations.StepRunsTheDecodedInstruction := by
  refine ⟨fun s w rest i hready hcmd hi => ?_, fun s w i hrst hu hi => ?_⟩
  · have hdecode : decodeCmd w = i := Except.ok.inj hi
    rw [step_command hready hcmd, hdecode]
  · have hdecode : decodeUop w = .ok i := hi
    rw [step_microOp hrst hu, hdecode]

/-- The machine that has emitted a message's digest is done with every command. -/
theorem messageDigested_final {s : State} (hready : s.Ready) (m din : List Byte) : (messageDigested s m din).Final := by
  obtain ⟨hrst, huop, _⟩ := hready
  exact ⟨⟨hrst, huop, rfl⟩, rfl⟩

/-- Settles O59: the run of a message, and what it leaves. -/
theorem engineComputesSha256OfTheMessage : Obligations.EngineComputesSha256OfTheMessage := by
  intro s ps after hinv hready hrsp hps _ hcmd hdin
  exact ⟨_, run_message hinv hready hrsp hps hcmd hdin, rfl, rfl, rfl, messageDigested_final hready _ _, rfl⟩

end Sys2Proof.Proofs
end

section
/-! The compression's family: eight locations whose roles rotate hold the working variables
(`readRoles_roundInPlace`). -/

namespace Sys2Proof.Proofs

open Sys2Proof.Machine

/-! ## The locations of the roles (R155) -/

theorem roleLocation_lt (t j : Nat) : roleLocation t j < 8 := Nat.mod_lt _ (by decide)

/-- A round moves each location one role along: a to b, b to c, and so on. -/
@[simp] theorem roleLocation_succ_succ (t j : Nat) : roleLocation (t + 1) (j + 1) = roleLocation t j := by
  unfold roleLocation
  omega

/-- The location of h becomes that of a. -/
@[simp] theorem roleLocation_succ_zero (t : Nat) : roleLocation (t + 1) 0 = roleLocation t 7 := by
  unfold roleLocation
  omega

/-- No two roles share a location. -/
theorem roleLocation_inj {t j k : Nat} (hj : j < 8) (hk : k < 8) : roleLocation t j = roleLocation t k ↔ j = k := by
  unfold roleLocation
  omega

/-! ## A round in place -/

theorem wordAt_set_same {loc : List Word} {i : Nat} (h : i < loc.length) (w : Word) : wordAt (loc.set i w) i = w := by
  simp [wordAt, h]

theorem wordAt_set_other (loc : List Word) {i j : Nat} (h : i ≠ j) (w : Word) :
    wordAt (loc.set i w) j = wordAt loc j := by
  simp [wordAt, h]

@[simp] theorem roundInPlace_length (t : Nat) (loc : List Word) (wt : Word) :
    (roundInPlace t loc wt).length = loc.length := by
  simp [roundInPlace]

@[simp] theorem roundsInPlace_length (n : Nat) (W loc : List Word) : (roundsInPlace n W loc).length = loc.length := by
  induction n with
  | zero => rfl
  | succ n ih => exact (roundInPlace_length _ _ _).trans ih

section Round
variable {loc : List Word} (t : Nat) (wt : Word)

/-- The locations of the six other roles keep their words. -/
theorem roundInPlace_other_role {j : Nat} (hj : j < 8) (hd : j ≠ 3) (hh : j ≠ 7) :
    wordAt (roundInPlace t loc wt) (roleLocation t j) = wordAt loc (roleLocation t j) := by
  have hne7 : roleLocation t 7 ≠ roleLocation t j := by simpa [roleLocation_inj, hj] using hh.symm
  have hne3 : roleLocation t 3 ≠ roleLocation t j := by simpa [roleLocation_inj, hj] using hd.symm
  exact (wordAt_set_other _ hne7 _).trans (wordAt_set_other _ hne3 _)

variable (hlen : loc.length = 8)
include hlen

/-- The location of h takes the new a. -/
theorem roundInPlace_role_h :
    wordAt (roundInPlace t loc wt) (roleLocation t 7) = (round t (readRoles t loc) wt).a :=
  wordAt_set_same (by simp [hlen, roleLocation_lt]) _

/-- The location of d takes the new e. -/
theorem roundInPlace_role_d :
    wordAt (roundInPlace t loc wt) (roleLocation t 3) = (round t (readRoles t loc) wt).e := by
  have hne : roleLocation t 7 ≠ roleLocation t 3 := by simp [roleLocation_inj]
  exact (wordAt_set_other _ hne _).trans (wordAt_set_same (by simp [hlen, roleLocation_lt]) _)

/-- A round in place, read by the roles after it, is the round of what was read by the roles before it (R154, R155). -/
theorem readRoles_roundInPlace : readRoles (t + 1) (roundInPlace t loc wt) = round t (readRoles t loc) wt := by
  unfold readRoles
  simp (disch := decide) only [roleLocation_succ_zero, roleLocation_succ_succ, roundInPlace_role_h t wt hlen,
    roundInPlace_role_d t wt hlen, roundInPlace_other_role]
  rfl

end Round

/-! ## All rounds (R157) -/

/-- Eight locations that start as H hold the working variables of every round. -/
theorem readRoles_roundsInPlace (n : Nat) (W : List Word) (H : HashState) :
    readRoles n (roundsInPlace n W H.words) = rounds n W (seed H) := by
  induction n with
  | zero => rfl
  | succ n ih =>
    have hlen : (roundsInPlace n W H.words).length = 8 := roundsInPlace_length n W H.words
    calc readRoles (n + 1) (roundsInPlace (n + 1) W H.words)
        = round n (readRoles n (roundsInPlace n W H.words)) (wordAt W n) := readRoles_roundInPlace n _ hlen
      _ = rounds (n + 1) W (seed H) := by rw [ih]; rfl

/-- Settles O25: the locations hold the working variables after every number of rounds, by induction on it, and so after
the 64 that both compressions add to H. -/
theorem inPlaceCompressionRefinesCompress : Obligations.InPlaceCompressionRefinesCompress := by
  refine ⟨readRoles_roundsInPlace, fun H blk => ?_⟩
  unfold compressInPlace compress
  rw [readRoles_roundsInPlace]

end Sys2Proof.Proofs
end

section
/-! The schedule's family: an expansion keeps the words it starts from, and each new word is the sum of R171
(`wordAt_expandWords_recurrence`); a 16-word window slides along it (`slideWindow_drop`). -/

namespace Sys2Proof.Proofs

open Sys2Proof.Machine

/-! ## The words of a block (R60, R170) -/

@[simp] theorem blockWords_length : ∀ blk : List Byte, (blockWords blk).length = blk.length / 4
  | [] | [_] | [_, _] | [_, _, _] => by simp [blockWords]
  | _ :: _ :: _ :: _ :: rest => by
    simp only [blockWords, List.length_cons, blockWords_length rest]
    omega

/-- Word t is bytes 4t to 4t + 3, the first of them on top. -/
theorem wordAt_blockWords {blk : List Byte} {t : Nat} (ht : t < blk.length / 4) :
    wordAt (blockWords blk) t =
      be32 (blk.getD (4 * t) 0) (blk.getD (4 * t + 1) 0) (blk.getD (4 * t + 2) 0) (blk.getD (4 * t + 3) 0) := by
  match blk, t with
  | [], _ | [_], _ | [_, _], _ | [_, _, _], _ => simp at ht
  | _ :: _ :: _ :: _ :: _, 0 => rfl
  | _ :: _ :: _ :: _ :: rest, t + 1 =>
    have hrest : t < rest.length / 4 := by
      simp only [List.length_cons] at ht
      omega
    exact (wordAt_blockWords hrest :)

/-! ## Expansion (R171, R172) -/

/-- The next word, by its distance from the oldest of the 16 words that end the schedule. -/
theorem nextWord_eq {W : List Word} {t : Nat} (hlen : W.length = t + 16) :
    nextWord W = Alu.ssig1 (wordAt W (t + 14)) + wordAt W (t + 9) + Alu.ssig0 (wordAt W (t + 1)) + wordAt W t := by
  rw [nextWord, hlen]; rfl

theorem wordAt_append_left {W : List Word} {t : Nat} (ht : t < W.length) (V : List Word) :
    wordAt (W ++ V) t = wordAt W t :=
  List.getD_append _ _ _ _ ht

@[simp] theorem expandWords_length (n : Nat) (W : List Word) : (expandWords n W).length = W.length + n := by
  induction n generalizing W with
  | zero => rfl
  | succ n ih => simp only [expandWords, ih, List.length_append, List.length_singleton]; omega

/-- Expansion leaves the words that are there. -/
theorem wordAt_expandWords_of_lt {W : List Word} {t : Nat} (ht : t < W.length) (n : Nat) :
    wordAt (expandWords n W) t = wordAt W t := by
  induction n generalizing W with
  | zero => rfl
  | succ n ih =>
    calc wordAt (expandWords n (W ++ [nextWord W])) t
        = wordAt (W ++ [nextWord W]) t := ih (by rw [List.length_append]; omega)
      _ = wordAt W t := wordAt_append_left ht _

theorem expandWords_add (m n : Nat) (W : List Word) : expandWords (m + n) W = expandWords n (expandWords m W) := by
  induction m generalizing W with
  | zero => rw [Nat.zero_add]; rfl
  | succ m ih => rw [Nat.succ_add]; exact ih _

/-- The first new word of an expansion. -/
theorem wordAt_expandWords_length (n : Nat) (W : List Word) :
    wordAt (expandWords (n + 1) W) W.length = nextWord W := by
  have hlt : W.length < (W ++ [nextWord W]).length := by simp
  rw [expandWords, wordAt_expandWords_of_lt hlt, wordAt, List.getD_append_right _ _ _ _ le_rfl, Nat.sub_self]
  rfl

/-- Every new word is the sum of R171 over words of the whole expansion. -/
theorem wordAt_expandWords_recurrence {W : List Word} {n t : Nat} (hnew : W.length ≤ t + 16)
    (ht : t + 16 < W.length + n) :
    wordAt (expandWords n W) (t + 16) =
      Alu.ssig1 (wordAt (expandWords n W) (t + 14)) + wordAt (expandWords n W) (t + 9) +
        Alu.ssig0 (wordAt (expandWords n W) (t + 1)) + wordAt (expandWords n W) t := by
  induction n generalizing W with
  | zero => omega
  | succ n ih =>
    by_cases hfirst : W.length = t + 16
    · rw [wordAt_expandWords_of_lt (t := t + 14) (by omega), wordAt_expandWords_of_lt (t := t + 9) (by omega),
        wordAt_expandWords_of_lt (t := t + 1) (by omega), wordAt_expandWords_of_lt (t := t) (by omega),
        ← nextWord_eq hfirst, ← hfirst]
      exact wordAt_expandWords_length n W
    · exact ih (by simp; omega) (by simp; omega)

/-- Settles O19: the block's 16 words stay, and the 48 that follow obey the recurrence. -/
theorem scheduleFollowsLoadAndExpansion : Obligations.ScheduleFollowsLoadAndExpansion := by
  intro blk hblk
  have hlen : (blockWords blk).length = 16 := by simp [hblk]
  refine ⟨by simp [schedule, hlen], fun t ht => ?_, fun t hge hlt => ?_⟩
  · calc wordAt (schedule blk) t = wordAt (blockWords blk) t := wordAt_expandWords_of_lt (hlen ▸ ht) 48
      _ = _ := wordAt_blockWords (by omega)
  · obtain ⟨u, rfl⟩ := Nat.exists_eq_add_of_le' hge
    exact wordAt_expandWords_recurrence (by omega) (by omega)

/-! ## The 16-word window (R173) -/

theorem wordAt_drop (W : List Word) (t k : Nat) : wordAt (W.drop t) k = wordAt W (t + k) := by
  simp [wordAt, List.getD_eq_getElem?_getD]

/-- The window of the last 16 words slides to that of the schedule with its next word. -/
theorem slideWindow_drop {W : List Word} {t : Nat} (hlen : W.length = t + 16) :
    slideWindow (W.drop t) = (W ++ [nextWord W]).drop (t + 1) := by
  rw [List.drop_append_of_le_length (by omega), nextWord_eq hlen, slideWindow, List.tail_drop]
  simp only [wordAt_drop, Alu.add, Nat.add_zero]

/-- n rounds read W[0] to W[n - 1] and no other word (R153). -/
theorem rounds_congr {W V : List Word} {n : Nat} (h : ∀ t < n, wordAt W t = wordAt V t) (v : Vars) :
    rounds n W v = rounds n V v := by
  induction n with
  | zero => rfl
  | succ n ih =>
    rw [rounds, rounds, ih fun t ht => h t (by omega), h n (by omega)]

/-- Rounds on a window that slides while the schedule grows are the next rounds on the whole schedule. -/
theorem roundsWindowed_eq_rounds (n : Nat) {W : List Word} {t : Nat} (hlen : W.length = t + 16) (v : Vars) :
    roundsWindowed n t (W.drop t) (rounds t (expandWords n W) v) = rounds (t + n) (expandWords n W) v := by
  induction n generalizing W t with
  | zero => rfl
  | succ n ih =>
    have holdest : wordAt (W.drop t) 0 = wordAt (expandWords (n + 1) W) t := by
      rw [wordAt_drop, wordAt_expandWords_of_lt (by omega), Nat.add_zero]
    have hgrown : (W ++ [nextWord W]).length = t + 1 + 16 := by simp; omega
    rw [roundsWindowed, holdest, slideWindow_drop hlen, ← Nat.add_assoc, Nat.add_right_comm]
    exact ih hgrown

/-- Settles O24: the window makes 16 words beyond the schedule's 64, and the 64 rounds read none of them. -/
theorem windowedCompressionRefinesCompress : Obligations.WindowedCompressionRefinesCompress := by
  intro H blk hblk
  have hlen : (blockWords blk).length = 0 + 16 := by simp [hblk]
  have hsame : ∀ t < 64, wordAt (expandWords 64 (blockWords blk)) t = wordAt (schedule blk) t := fun t ht => by
    rw [expandWords_add 48 16]
    exact wordAt_expandWords_of_lt (by simpa [hlen] using ht) 16
  have hrounds : roundsWindowed 64 0 (blockWords blk) (seed H) = rounds 64 (schedule blk) (seed H) :=
    (roundsWindowed_eq_rounds 64 hlen (seed H)).trans (rounds_congr hsame (seed H))
  rw [compressWindowed, hrounds, compress]

end Sys2Proof.Proofs
end

section
/-! The ALU's family: what each micro-op puts on Y (`PutsOnY`), its function bit by bit, and that a micro-op's result
depends on its operands alone. -/

namespace Sys2Proof.Proofs

open Sys2Proof.Machine Sys2Proof.Laws

/-! ## What each micro-op puts on Y (R98, R201) -/

theorem putsOnY_add : PutsOnY .aluAdd fun a b _ => Alu.add a b := fun _ => rfl
theorem putsOnY_xor : PutsOnY .aluXor fun a b _ => Alu.xor a b := fun _ => rfl
theorem putsOnY_and : PutsOnY .aluAnd fun a b _ => Alu.and a b := fun _ => rfl
theorem putsOnY_not : PutsOnY .aluNot fun a _ _ => Alu.not a := fun _ => rfl
theorem putsOnY_rotr (sh : BitVec 5) : PutsOnY (.aluRotr sh) fun a _ _ => Alu.rotr a sh := fun _ => rfl
theorem putsOnY_shr (sh : BitVec 5) : PutsOnY (.aluShr sh) fun a _ _ => Alu.shr a sh := fun _ => rfl
theorem putsOnY_bsig0 : PutsOnY .aluBsig0 fun a _ _ => Alu.bsig0 a := fun _ => rfl
theorem putsOnY_bsig1 : PutsOnY .aluBsig1 fun a _ _ => Alu.bsig1 a := fun _ => rfl
theorem putsOnY_ssig0 : PutsOnY .aluSsig0 fun a _ _ => Alu.ssig0 a := fun _ => rfl
theorem putsOnY_ssig1 : PutsOnY .aluSsig1 fun a _ _ => Alu.ssig1 a := fun _ => rfl
theorem putsOnY_ch : PutsOnY .aluCh Alu.ch := fun _ => rfl
theorem putsOnY_maj : PutsOnY .aluMaj Alu.maj := fun _ => rfl

/-- A micro-op that answers a next state is a function of its operands, put on Y: only the reserved rows are none. -/
theorem exists_putsOnY {i : Instr} {w : BitVec 16} {s t : State} (hi : encode i = .uop w) (h : exec i s = .next t) :
    ∃ f, PutsOnY i f := by
  cases i with
  | aluAdd => exact ⟨_, putsOnY_add⟩
  | aluXor => exact ⟨_, putsOnY_xor⟩
  | aluAnd => exact ⟨_, putsOnY_and⟩
  | aluNot => exact ⟨_, putsOnY_not⟩
  | aluRotr sh => exact ⟨_, putsOnY_rotr sh⟩
  | aluShr sh => exact ⟨_, putsOnY_shr sh⟩
  | aluBsig0 => exact ⟨_, putsOnY_bsig0⟩
  | aluBsig1 => exact ⟨_, putsOnY_bsig1⟩
  | aluSsig0 => exact ⟨_, putsOnY_ssig0⟩
  | aluSsig1 => exact ⟨_, putsOnY_ssig1⟩
  | aluCh => exact ⟨_, putsOnY_ch⟩
  | aluMaj => exact ⟨_, putsOnY_maj⟩
  | aluReserved low rest => cases h
  | _ => cases hi

/-- Settles O18: both runs put the same function of A, B and C on Y. -/
theorem microOpResultDependsOnOperandsAlone : Obligations.MicroOpResultDependsOnOperandsAlone := by
  intro w i s s' t t' hdec ht ht' ha hb hc
  obtain ⟨w', hw'⟩ := decodeUop_encode hdec
  obtain ⟨f, hf⟩ := exists_putsOnY hw' ht
  rw [hf s] at ht
  rw [hf s'] at ht'
  cases ht
  cases ht'
  exact ⟨by rw [ha, hb, hc], rfl⟩

/-! ## The two-operand and one-operand functions (R185 to R189) -/

/-- The carry out of the 33-bit sum is cut off (R185). -/
theorem add_eq_trunc (a b : Word) : Alu.add a b = (a.setWidth 33 + b.setWidth 33).setWidth 32 := by
  rw [BitVec.setWidth_add _ _ (by decide)]
  simp [Alu.add]

/-- Settles O6: the 33-bit sum cut to 32 bits is the library's addition of words, whose laws these are. -/
theorem aluAddIsAdditionModulo32Bits : Obligations.AluAddIsAdditionModulo32Bits := by
  refine ⟨by decide, _, putsOnY_add, fun a b _ => add_eq_trunc a b, fun a b _ => ⟨?_, ?_, ?_⟩, fun a b c _ => ?_,
    fun _ => ⟨rfl, rfl, rfl⟩⟩
  · exact BitVec.toNat_add a b
  · exact BitVec.add_comm a b
  · exact BitVec.add_zero a
  · exact BitVec.add_assoc a b c

/-- Settles O7: `xor_bit`, and the laws of the library's exclusive-or. -/
theorem aluXorIsBitwise : Obligations.AluXorIsBitwise := by
  refine ⟨by decide, _, putsOnY_xor, fun a b _ i _ => xor_bit a b i, fun a _ => ⟨?_, ?_, ?_⟩, fun _ => rfl⟩
  · exact BitVec.xor_self
  · exact BitVec.xor_zero
  · exact BitVec.xor_allOnes

/-- Settles O8: `and_bit`, and the laws of the library's and. -/
theorem aluAndIsBitwise : Obligations.AluAndIsBitwise := by
  refine ⟨by decide, _, putsOnY_and, fun a b _ i _ => and_bit a b i, fun a _ => ⟨?_, ?_, ?_⟩, fun _ => rfl⟩
  · exact BitVec.and_zero
  · exact BitVec.and_allOnes
  · exact BitVec.and_self

/-- Settles O9: `not_bit`, and the library's complement is its own inverse. -/
theorem aluNotIsBitwise : Obligations.AluNotIsBitwise :=
  ⟨by decide, _, putsOnY_not, fun a _ _ _ hi => not_bit a hi, fun _ _ _ => ⟨rfl, BitVec.not_not⟩, fun _ _ => rfl⟩

/-! ## Rotation and shift (R191, R192) -/

/-- A rotation joins the two shifts; at amount 0 the left one is empty. -/
theorem rotr_eq_or (a : Word) (s : BitVec 5) : Alu.rotr a s = (a >>> s.toNat ||| a <<< (32 - s.toNat)) :=
  BitVec.rotateRight_eq_rotateRightAux_of_lt s.isLt

theorem rotr_zero (a : Word) : Alu.rotr a 0 = a := by
  simp [rotr_eq_or]

/-- A word whose bits are all the same is its own rotation by any amount. -/
theorem rotr_of_uniform {a : Word} {v : Bool} (h : ∀ i < 32, a.getLsbD i = v) (s : BitVec 5) : Alu.rotr a s = a := by
  refine BitVec.eq_of_getLsbD_eq fun i hi => ?_
  rw [rotr_bit a s hi, h _ (Nat.mod_lt _ (by decide)), h i hi]

theorem ones_bit {i : Nat} (hi : i < 32) : (0xffffffff : Word).getLsbD i = true := by
  have hones : (0xffffffff : Word) = BitVec.allOnes 32 := rfl
  rw [hones, BitVec.getLsbD_allOnes, decide_eq_true hi]

/-- Settles O10: bit by bit by `rotr_bit`, as two shifts by `rotr_eq_or`. -/
theorem aluRotrRotatesRight : Obligations.AluRotrRotatesRight := by
  refine ⟨by decide, _, putsOnY_rotr, fun sh a _ _ _ hi => rotr_bit a sh hi, fun sh a _ _ _ => rotr_eq_or a sh,
    fun a _ _ => ⟨rotr_zero a, ?_⟩, fun sh _ _ => ⟨?_, ?_⟩, fun _ _ => ⟨rfl, rfl, rfl⟩⟩
  · exact (rotr_eq_or a 31).trans (BitVec.or_comm _ _)
  · exact rotr_of_uniform (v := false) (fun _ _ => BitVec.getLsbD_zero) sh
  · exact rotr_of_uniform (v := true) (fun _ hi => ones_bit hi) sh

/-- Settles O11: a bit that would come from beyond bit 31 is 0 (`shr_bit`). -/
theorem aluShrShiftsRightWithZeros : Obligations.AluShrShiftsRightWithZeros := by
  refine ⟨by decide, _, putsOnY_shr, fun sh a _ _ i _ => ?_, fun a _ _ => ⟨BitVec.ushiftRight_zero a, rfl⟩,
    fun _ _ => ⟨rfl, rfl⟩⟩
  rw [shr_bit]
  by_cases h : i + sh.toNat ≤ 31 <;> simp [h]

/-! ## The small sigmas (R196, R197) -/

/-- Bit i of σ0: the shift gives a bit up to bit 28 only. -/
theorem ssig0_bit (a : Word) {i : Nat} (hi : i < 32) : (Alu.ssig0 a).getLsbD i =
    (a.getLsbD ((i + 7) % 32) ^^ a.getLsbD ((i + 18) % 32) ^^ (decide (i + 3 ≤ 31) && a.getLsbD (i + 3))) := by
  rw [Alu.ssig0, xor_bit, xor_bit, rotr_bit a 7 hi, rotr_bit a 18 hi, shr_bit]
  rfl

/-- Bit i of σ1: the shift gives a bit up to bit 21 only. -/
theorem ssig1_bit (a : Word) {i : Nat} (hi : i < 32) : (Alu.ssig1 a).getLsbD i =
    (a.getLsbD ((i + 17) % 32) ^^ a.getLsbD ((i + 19) % 32) ^^ (decide (i + 10 ≤ 31) && a.getLsbD (i + 10))) := by
  rw [Alu.ssig1, xor_bit, xor_bit, rotr_bit a 17 hi, rotr_bit a 19 hi, shr_bit]
  rfl

/-- Settles O14: `ssig0_bit`, and the function evaluated on the four words. -/
theorem aluSsig0MixesTwoRotationsAndAShift : Obligations.AluSsig0MixesTwoRotationsAndAShift :=
  ⟨by decide, _, putsOnY_ssig0, fun a _ _ _ hi => ssig0_bit a hi, fun _ _ => ⟨rfl, rfl, rfl, rfl⟩⟩

/-- Settles O15: `ssig1_bit`, and the function evaluated on the four words. -/
theorem aluSsig1MixesTwoRotationsAndAShift : Obligations.AluSsig1MixesTwoRotationsAndAShift :=
  ⟨by decide, _, putsOnY_ssig1, fun a _ _ _ hi => ssig1_bit a hi, fun _ _ => ⟨rfl, rfl, rfl, rfl⟩⟩

/-! ## Choice and majority (R199, R200) -/

/-- Bit i of CH: at most one of the two products has a bit, since A selects one and its complement the other. -/
theorem ch_bit (a b c : Word) {i : Nat} (hi : i < 32) :
    (Alu.ch a b c).getLsbD i = if a.getLsbD i then b.getLsbD i else c.getLsbD i := by
  rw [Alu.ch, xor_bit, and_bit, and_bit, not_bit a hi]
  cases a.getLsbD i <;> simp

/-- A word that makes the same choice at every bit is CH. -/
theorem ch_eq_of_bits {a b c d : Word}
    (h : ∀ i < 32, (if a.getLsbD i then b.getLsbD i else c.getLsbD i) = d.getLsbD i) : Alu.ch a b c = d :=
  BitVec.eq_of_getLsbD_eq fun i hi => (ch_bit a b c hi).trans (h i hi)

/-- Settles O16: in the corner cases `ch_bit` chooses the same word at every bit. -/
theorem aluChChoosesBitByBit : Obligations.AluChChoosesBitByBit := by
  refine ⟨by decide, _, putsOnY_ch, fun _ _ _ => rfl, fun a b c _ hi => ch_bit a b c hi, fun a b c => ⟨?_, ?_, ?_⟩,
    rfl, rfl⟩
  · exact ch_eq_of_bits fun i hi => if_pos (ones_bit hi)
  · exact ch_eq_of_bits fun i _ => if_neg (by simp)
  · exact ch_eq_of_bits fun i _ => ite_self _

/-- Bit i of MAJ: the majority of the three bits. -/
theorem maj_bit (a b c : Word) (i : Nat) : (Alu.maj a b c).getLsbD i =
    decide (2 ≤ (a.getLsbD i).toNat + (b.getLsbD i).toNat + (c.getLsbD i).toNat) := by
  have truth : ∀ x y z : Bool, ((x && y) ^^ (x && z) ^^ (y && z)) = decide (2 ≤ x.toNat + y.toNat + z.toNat) := by
    decide
  rw [Alu.maj, xor_bit, xor_bit, and_bit, and_bit, and_bit]
  exact truth _ _ _

/-- Two equal operands are a majority. -/
theorem maj_self (a b : Word) : Alu.maj a a b = a := by
  have truth : ∀ x y : Bool, decide (2 ≤ x.toNat + x.toNat + y.toNat) = x := by decide
  exact BitVec.eq_of_getLsbD_eq fun i _ => (maj_bit a a b i).trans (truth _ _)

/-- Words whose bits hold equally many ones at every place have one majority. -/
theorem maj_congr {a b c a' b' c' : Word}
    (h : ∀ i, (a.getLsbD i).toNat + (b.getLsbD i).toNat + (c.getLsbD i).toNat =
      (a'.getLsbD i).toNat + (b'.getLsbD i).toNat + (c'.getLsbD i).toNat) : Alu.maj a b c = Alu.maj a' b' c' :=
  BitVec.eq_of_getLsbD_eq fun i _ => by rw [maj_bit, maj_bit, h i]

/-- Settles O17: the symmetry is that of the count of ones at each place. -/
theorem aluMajIsBitwiseMajority : Obligations.AluMajIsBitwiseMajority := by
  refine ⟨by decide, _, putsOnY_maj, fun _ _ _ => rfl, fun a b c i _ => maj_bit a b c i,
    fun a b c => ⟨maj_self a b, maj_congr fun i => ?_, maj_congr fun i => ?_⟩, rfl, rfl, rfl⟩
  · omega
  · omega

end Sys2Proof.Proofs
end

section
/-! The exceptions' family: a word that spells no command, and a use after FINALIZE, each answer the machine that
`raise` makes (R212); no step and no host move clears the run's record of an error; and no step from a good state
faults. -/

namespace Sys2Proof.Proofs

open Sys2Proof.Machine Sys2Proof.Laws

/-! ## Use after FINALIZE (R214, R247) -/

/-- An ABSORB short of payload takes what is offered and waits, in either phase (R247). -/
theorem exec_absorb_of_short {s : State} {n : BitVec 28} (hn : s.din.length < n.toNat) :
    exec (.absorb n) s = .next { s with inflight := some (.absorb n s.din), din := [] } := by
  have htaken : payloadTaken n [] s = s.din := by simp [payloadTaken, List.take_of_length_le hn.le]
  have hrest : acceptPayload n [] s = { s with din := [] } := by
    simp [acceptPayload, List.drop_of_length_le hn.le]
  rw [exec, execAbsorb, absorbFrom, htaken, hrest, payloadLength_eq, if_pos hn]
  rfl

section Consumed
variable {s : State} (hconsumed : s.engine.phase = .consumed)
include hconsumed

/-- An ABSORB with its payload offered drains it and raises the error (R214). -/
theorem exec_absorb_of_consumed {n : BitVec 28} (hn : n.toNat ≤ s.din.length) :
    exec (.absorb n) s = .next (({ s with din := s.din.drop n.toNat } : State).raise .useAfterFinalize) := by
  have htaken : exec (.absorb n) s = absorbPayload (s.din.take n.toNat) { s with din := s.din.drop n.toNat } :=
    execAbsorb_of_offered (List.length_take_of_le hn) (List.take_append_drop _ _).symm
  rw [htaken, absorbPayload, if_pos hconsumed]

theorem exec_finalize_of_consumed : exec .finalize s = .next (s.raise .useAfterFinalize) := by
  rw [exec, execFinalize, if_pos hconsumed]

end Consumed

/-- Settles O32: the three ways of a use after FINALIZE, and INIT, which is none. -/
theorem useAfterFinalizeDrainsAndErrs : Obligations.UseAfterFinalizeDrainsAndErrs := by
  intro s hconsumed
  exact ⟨fun n hn => exec_absorb_of_consumed hconsumed hn, fun n hn => exec_absorb_of_short hn,
    exec_finalize_of_consumed hconsumed, _, rfl, rfl, rfl, rfl⟩

/-! ## Words that spell no command (R213), and the order of the checks (R216) -/

section Word
variable {s : State} {w : BitVec 32} {rest : List (BitVec 32)} (hready : s.Ready) (hcmd : s.cmd = w :: rest)
include hready hcmd

theorem step_illegalOpcode (hop : w.toNat / 2 ^ 28 = 0 ∨ 4 ≤ w.toNat / 2 ^ 28) :
    step s = .next (({ s with cmd := rest } : State).raise .illegalOpcode) := by
  obtain ⟨_, _, _, _, _, op0, op4to7, op8toF⟩ := commandWordsDecodeByOpAndArg w
  rw [step_command hready hcmd]
  rcases hop with h0 | h4
  · rw [op0 h0]
    rfl
  · rcases Nat.lt_or_ge (w.toNat / 2 ^ 28) 8 with h8 | h8
    · rw [op4to7 h4 h8]
      rfl
    · rw [op8toF h8]
      rfl

theorem step_nonzeroArg (hop : w.toNat / 2 ^ 28 = 1 ∨ w.toNat / 2 ^ 28 = 3) (harg : w.toNat % 2 ^ 28 ≠ 0) :
    step s = .next (({ s with cmd := rest } : State).raise .nonzeroArg) := by
  obtain ⟨_, initArg, _, _, finalizeArg, _⟩ := commandWordsDecodeByOpAndArg w
  rw [step_command hready hcmd]
  rcases hop with h1 | h3
  · rw [initArg h1 harg]
    rfl
  · rw [finalizeArg h3 harg]
    rfl

theorem step_finalize_of_consumed (hconsumed : s.engine.phase = .consumed) (hop : w.toNat / 2 ^ 28 = 3)
    (harg : w.toNat % 2 ^ 28 = 0) :
    step s = .next (({ s with cmd := rest } : State).raise .useAfterFinalize) := by
  obtain ⟨_, _, _, finalize, _⟩ := commandWordsDecodeByOpAndArg w
  rw [step_command hready hcmd, finalize hop harg, exec_finalize_of_consumed (s := { s with cmd := rest }) hconsumed]

theorem step_absorb_of_consumed (hconsumed : s.engine.phase = .consumed) (hop : w.toNat / 2 ^ 28 = 2)
    (hoffered : w.toNat % 2 ^ 28 ≤ s.din.length) :
    step s = .next
      (({ s with cmd := rest, din := s.din.drop (w.toNat % 2 ^ 28) } : State).raise .useAfterFinalize) := by
  obtain ⟨_, _, absorb, _⟩ := commandWordsDecodeByOpAndArg w
  have hn : (BitVec.ofNat 28 (w.toNat % 2 ^ 28)).toNat = w.toNat % 2 ^ 28 :=
    toNat_ofNat_arg (Nat.mod_lt _ (Nat.two_pow_pos 28))
  rw [step_command hready hcmd, absorb hop,
    exec_absorb_of_consumed (s := { s with cmd := rest }) hconsumed (hn.symm ▸ hoffered), hn]

end Word

/-- Settles O39: each illegal instruction raises its code, and so does the step that accepts its word. -/
theorem illegalWordsRecordTheFirstErrorOnly : Obligations.IllegalWordsRecordTheFirstErrorOnly := by
  refine ⟨fun s i code hi => ?_, fun s w rest hready hcmd => ⟨fun hop => ?_, fun hop harg => ?_, fun hop => ?_⟩⟩
  · rcases hi with ⟨_, rfl, rfl⟩ | ⟨_, rfl, rfl⟩ | ⟨_, rfl, rfl⟩ | ⟨_, _, rfl, rfl⟩ | ⟨_, _, rfl, rfl⟩ <;> rfl
  · exact step_illegalOpcode hready hcmd hop
  · exact step_nonzeroArg hready hcmd hop harg
  · obtain ⟨_, _, absorb, _⟩ := commandWordsDecodeByOpAndArg w
    exact ⟨_, congrArg Except.ok (absorb hop)⟩

/-- The first error since reset is recorded with its code (R212). -/
theorem recordError_of_no_error {e : Engine} (h : e.err = false) (code : CmdErrorCode) :
    e.recordError code = { e with err := true, errcode := code.value } := by
  rw [Engine.recordError, h]
  rfl

/-- Settles O40: the step that accepts the word raises the error of the first check that fails, and no error is on
record before it. -/
theorem errorChecksRunInOrder : Obligations.ErrorChecksRunInOrder := by
  intro s w rest hready hcmd herr op arg recorded
  have recorded_of_raise {s' : State} {code : CmdErrorCode} (h : step s = .next (s'.raise code))
      (hs' : s'.engine = s.engine) : recorded code.value :=
    ⟨_, h, rfl, by rw [raise_engine, hs', recordError_of_no_error herr]⟩
  exact ⟨fun hop => recorded_of_raise (step_illegalOpcode hready hcmd hop) rfl,
    fun hop harg => recorded_of_raise (step_nonzeroArg hready hcmd hop harg) rfl,
    fun hconsumed hop harg => recorded_of_raise (step_finalize_of_consumed hready hcmd hconsumed hop harg) rfl,
    fun hconsumed hop harg => recorded_of_raise (step_absorb_of_consumed hready hcmd hconsumed hop harg) rfl⟩

/-! ## The run's record of an error (R218) -/

section Faulted
variable {s t : State} (hfaulted : s.faulted = true)
include hfaulted

theorem absorbFrom_keeps_faulted {arg : BitVec 28} {got : List Byte} (h : absorbFrom arg got s = .next t) :
    t.faulted = true := by
  rcases absorbFrom_cases h with ⟨_, rfl⟩ | hp
  · exact hfaulted
  · rcases absorbPayload_cases hp with ⟨_, rfl⟩ | ⟨_, e, _, rfl⟩
    · rfl
    · exact hfaulted

theorem execFinalize_keeps_faulted (h : execFinalize s = .next t) : t.faulted = true := by
  rcases execFinalize_cases h with ⟨_, rfl⟩ | ⟨_, e, _, ⟨_, rfl⟩ | ⟨_, rfl⟩⟩
  · rfl
  · exact hfaulted
  · exact hfaulted

theorem resume_keeps_faulted {f : InFlight} (h : resume f s = .next t) : t.faulted = true := by
  cases f with
  | absorb arg got => exact absorbFrom_keeps_faulted hfaulted h
  | finalize => exact execFinalize_keeps_faulted hfaulted h

theorem exec_keeps_faulted {i : Instr} (h : exec i s = .next t) : t.faulted = true := by
  rcases exec_cases h with ⟨_, rfl⟩ | ⟨arg, _, ha⟩ | ⟨_, hf⟩ | ⟨_, _, _, _, code, rfl⟩ | ⟨_, y, rfl⟩
  · exact hfaulted
  · exact absorbFrom_keeps_faulted hfaulted ha
  · exact execFinalize_keeps_faulted hfaulted hf
  · rfl
  · exact hfaulted

theorem step_keeps_faulted (h : step s = .next t) : t.faulted = true := by
  rcases step_cases h with ⟨_, rfl⟩ | ⟨_, ⟨w, y, _, rfl⟩ | ⟨_, ⟨f, _, hres⟩ | ⟨_, ⟨w, rest, _, hex⟩ | ⟨_, rfl⟩⟩⟩⟩
  · exact hfaulted
  · exact hfaulted
  · exact resume_keeps_faulted hfaulted hres
  · exact exec_keeps_faulted (s := s.takeCommand) hfaulted hex
  · exact hfaulted

end Faulted

/-- Settles O42: an error raised sets the record, and nothing else writes it, a reset neither. -/
theorem runFaultIsNeverCleared : Obligations.RunFaultIsNeverCleared := fun _ _ hfaulted =>
  ⟨step_keeps_faulted hfaulted, hfaulted, hfaulted, fun _ => hfaulted, fun _ => hfaulted, fun _ => hfaulted, hfaulted⟩

/-! ## No step from a good state faults (R210, R66) -/

section Good
variable {s : State} (hinv : s.engine.Inv)
include hinv

/-- An ABSORB answers a next state: a good engine absorbs any payload. -/
theorem absorbFrom_next (arg : BitVec 28) (got : List Byte) : ∃ t, absorbFrom arg got s = .next t := by
  unfold absorbFrom
  split
  · exact ⟨_, rfl⟩
  · unfold absorbPayload
    split
    · exact ⟨_, rfl⟩
    · rw [acceptPayload_engine, absorb_eq hinv]
      exact ⟨_, rfl⟩

/-- A FINALIZE answers a next state: a good engine holds every byte that it reads. -/
theorem execFinalize_next : ∃ t, execFinalize s = .next t := by
  unfold execFinalize
  split
  · exact ⟨_, rfl⟩
  · rw [finalize_eq hinv]
    dsimp only
    split <;> exact ⟨_, rfl⟩

theorem resume_next (f : InFlight) : ∃ t, resume f s = .next t := by
  cases f with
  | absorb arg got => exact absorbFrom_next hinv arg got
  | finalize => exact execFinalize_next hinv

/-- Every instruction of the command channel answers a next state. -/
theorem exec_next {i : Instr} (hi : ∀ w, encode i ≠ .uop w) : ∃ t, exec i s = .next t := by
  cases i with
  | absorb arg => exact absorbFrom_next hinv arg []
  | finalize => exact execFinalize_next hinv
  | init | illegalInitArg | illegalFinalizeArg | illegalOp0 | illegalOp4to7 | illegalOp8toF => exact ⟨_, rfl⟩
  | _ => exact absurd rfl (hi _)

end Good

/-- A micro-op puts a word on Y or is refused (R100, R201). -/
theorem exec_microOp_ne_fault {i : Instr} {w : BitVec 16} (hi : encode i = .uop w) (s : State) (r : Fault) :
    exec i s ≠ .fault r := by
  cases i with
  | init | absorb | finalize | illegalInitArg | illegalFinalizeArg | illegalOp0 | illegalOp4to7 | illegalOp8toF =>
    cases hi
  | _ => exact nofun

theorem step_of_rst {s : State} (hrst : s.rst = true) : step s = .next s.hardwareReset := by
  simp [step, State.nextEvent, hrst]

/-- A step of a ready machine with nothing offered (R230). -/
theorem step_of_final {s : State} (hfinal : s.Final) : step s = .next s := by
  obtain ⟨⟨hrst, huop, hinflight⟩, hcmd⟩ := hfinal
  simp [step, State.nextEvent, hrst, huop, hinflight, hcmd]

theorem step_next {s : State} (hinv : s.engine.Inv) (huop : s.alu.uop = none) : ∃ t, step s = .next t := by
  cases hrst : s.rst with
  | true => exact ⟨_, step_of_rst hrst⟩
  | false =>
    cases hinflight : s.inflight with
    | some f =>
      rw [step_resume hrst huop hinflight]
      exact resume_next hinv f
    | none =>
      cases hcmd : s.cmd with
      | nil => exact ⟨_, step_of_final ⟨⟨hrst, huop, hinflight⟩, hcmd⟩⟩
      | cons w rest =>
        rw [step_command ⟨hrst, huop, hinflight⟩ hcmd]
        exact exec_next (s := { s with cmd := rest }) hinv (decodeCmd_not_uop w)

theorem step_microOp_ne_fault {s : State} {w : BitVec 16} (huop : s.alu.uop = some w) (r : Fault) :
    step s ≠ .fault r := by
  cases hrst : s.rst with
  | true => simp [step_of_rst hrst]
  | false =>
    rw [step_microOp hrst huop]
    cases hdec : decodeUop w with
    | error why => exact nofun
    | ok i =>
      obtain ⟨w', hw'⟩ := decodeUop_encode hdec
      exact exec_microOp_ne_fault hw' _ r

/-- Settles O57: with no micro-op issued a step answers a next state, and a micro-op does not fault. -/
theorem noStepFaultsFromAGoodState : Obligations.NoStepFaultsFromAGoodState := by
  refine fun s hinv => ⟨fun r => ?_, step_next hinv.1⟩
  cases huop : s.alu.uop with
  | some w => exact step_microOp_ne_fault huop r
  | none =>
    obtain ⟨t, ht⟩ := step_next hinv.1 huop
    simp [ht]

end Sys2Proof.Proofs
end

section
/-! The hazards' family: a command that waits for its host goes on as if it had been accepted only once the host had
done its duty (R247, R249), and what STATUS shows while a command is in flight (R250). -/

namespace Sys2Proof.Proofs

open Sys2Proof.Machine Sys2Proof.Laws

/-! ## An ABSORB short of payload (R247) -/

/-- The machine in which an ABSORB of `n` bytes has accepted those that `s` offers, and `more` are offered next. -/
def absorbWaiting (s : State) (n : BitVec 28) (more : List Byte) : State :=
  { s with inflight := some (.absorb n s.din), din := more }

section ShortAbsorb
variable {s : State} {n : BitVec 28} (hn : s.din.length ≤ n.toNat) (more : List Byte)
include hn

/-- The bytes that an ABSORB has once it goes on are those it takes when all are offered at once. -/
theorem payloadTaken_absorbWaiting :
    payloadTaken n s.din (absorbWaiting s n more) = payloadTaken n [] (s.offerData more) := by
  simp [payloadTaken, absorbWaiting, List.take_append, List.take_of_length_le hn]

/-- It leaves the same bytes offered. -/
theorem acceptPayload_absorbWaiting :
    acceptPayload n s.din (absorbWaiting s n more) =
      { acceptPayload n [] (s.offerData more) with inflight := some (.absorb n s.din) } := by
  simp [acceptPayload, absorbWaiting, State.offerData, List.drop_append, List.drop_of_length_le hn]

/-- An ABSORB in flight goes on as one accepted with all the bytes offered at once, be they enough or not. -/
theorem resume_absorbWaiting :
    resume (.absorb n s.din) (absorbWaiting s n more) = exec (.absorb n) (s.offerData more) := by
  rw [resume, exec, execAbsorb, absorbFrom, absorbFrom, payloadTaken_absorbWaiting hn, acceptPayload_absorbWaiting hn]
  rfl

theorem step_absorbWaiting (hrst : s.rst = false) (huop : s.alu.uop = none) :
    step (absorbWaiting s n more) = exec (.absorb n) (s.offerData more) := by
  have hresume : step (absorbWaiting s n more) = resume (.absorb n s.din) (absorbWaiting s n more) :=
    step_resume hrst huop rfl
  rw [hresume, resume_absorbWaiting hn]

end ShortAbsorb

theorem dinReady_absorbWaiting {s : State} {n : BitVec 28} (hrst : s.rst = false) (hn : s.din.length < n.toNat)
    (more : List Byte) : (absorbWaiting s n more).dinReady = true := by
  simp [State.dinReady, absorbWaiting, hrst, hn]

/-- Settles O33: a step with no more bytes offered is the ABSORB again, which is still short. -/
theorem shortAbsorbWaitsAndResumes : Obligations.ShortAbsorbWaitsAndResumes := by
  intro s n more hrst huop hshort
  have hwaits : exec (.absorb n) s = .next (absorbWaiting s n []) := exec_absorb_of_short hshort
  have hgoesOn (bs : List Byte) : step (absorbWaiting s n bs) = exec (.absorb n) (s.offerData bs) :=
    step_absorbWaiting hshort.le bs hrst huop
  have hnothing : s.offerData [] = s := by simp [State.offerData]
  have hstays : step (absorbWaiting s n []) = .next (absorbWaiting s n []) := by rw [hgoesOn, hnothing, hwaits]
  exact ⟨_, hwaits, rfl, rfl, rfl, dinReady_absorbWaiting hrst hshort [], hstays, fun _ => hgoesOn more⟩

/-! ## A FINALIZE whose response is not accepted (R249, R241) -/

/-- A FINALIZE that is accepted or goes on does the same whatever is in flight. -/
theorem execFinalize_of_inflight (s : State) (f : Option InFlight) :
    execFinalize { s with inflight := f } = execFinalize s := rfl

/-- In phase ACTIVE, the host not ready, FINALIZE waits (R249). -/
theorem execFinalize_of_not_ready {s : State} {e : Engine} (hactive : s.engine.phase = .active)
    (he : s.engine.finalize = .ok e) (hready : s.rspReady = false) : execFinalize s = .next (s.wait .finalize) := by
  simp [execFinalize, hactive, he, hready]

/-- The step of a waiting FINALIZE answers what FINALIZE answers in the state it was accepted in. -/
theorem step_of_waiting_finalize {s : State} (hrst : s.rst = false) (huop : s.alu.uop = none) :
    step (s.wait .finalize) = exec .finalize s := by
  have hresume : step (s.wait .finalize) = resume .finalize (s.wait .finalize) := step_resume hrst huop rfl
  exact hresume.trans (execFinalize_of_inflight s _)

theorem rspValid_of_waiting_finalize {s : State} (hrst : s.rst = false) : (s.wait .finalize).rspValid = true := by
  simp [State.rspValid, hrst]

/-- A waiting FINALIZE shows the digest it will hand over (R87). -/
theorem rspData_of_waiting_finalize {s : State} {e : Engine} (hrst : s.rst = false) (he : s.engine.finalize = .ok e) :
    (s.wait .finalize).rspData = some (rspWord (digestBytes e.h)) := by
  simp [State.rspData, rspValid_of_waiting_finalize hrst, he]

/-- Settles O38: the step of a waiting FINALIZE is FINALIZE again, which waits or completes by rsp_ready alone. -/
theorem finalizeWaitsForItsResponseToBeAccepted : Obligations.FinalizeWaitsForItsResponseToBeAccepted := by
  intro s hinv hactive hnotReady hrst huop
  have hfin := finalize_eq hinv
  have hwaits : exec .finalize s = .next (s.wait .finalize) := execFinalize_of_not_ready hactive hfin hnotReady
  have hcompletes := execFinalize_of_active (s := s.setRspReady true) hactive hfin rfl
  have hgoesOn := step_of_waiting_finalize (s := s.setRspReady true) hrst huop
  exact ⟨s.wait .finalize, _, hwaits, rfl, rfl, rfl, rspValid_of_waiting_finalize hrst,
    (step_of_waiting_finalize hrst huop).trans hwaits, hgoesOn.trans hcompletes, hcompletes,
    ⟨_, rspData_of_waiting_finalize hrst hfin, rfl⟩, rfl, rfl⟩

/-! ## STATUS while a command is in flight (R250) -/

/-- The engine whose value of `field` the status port shows while `f` is in flight: by the draw, the engine as it is or
as `statusAfter` has it. -/
def engineShown (s : State) (f : InFlight) (field : StatusField) : Engine :=
  if Config.statusDraw s.statusReads field then f.statusAfter s.engine else s.engine

theorem engineShown_cases (s : State) (f : InFlight) (field : StatusField) :
    engineShown s f field = f.statusAfter s.engine ∨ engineShown s f field = s.engine := ite_eq_or_eq _ _ _

theorem statusPort_of_inflight {s : State} {f : InFlight} (hf : s.inflight = some f) :
    s.statusPort = statusWord (engineShown s f .consumed).consumed (engineShown s f .err).err true
      (engineShown s f .errcode).errcode := by
  simp only [State.statusPort, hf, engineShown, apply_ite Engine.consumed, apply_ite Engine.err,
    apply_ite Engine.errcode]

theorem status_eq_of_fields {e e' : Engine} (hphase : e.phase = e'.phase) (herr : e.err = e'.err)
    (hcode : e.errcode = e'.errcode) : e.status = e'.status := by
  simp only [Engine.status, Engine.consumed, hphase, herr, hcode]

/-- `statusAfter` gives the STATUS that the command completes with, or leaves STATUS as it is: the latter for an ABSORB
in phase ACTIVE, and for a FINALIZE in flight in phase CONSUMED, which the invariant rules out. -/
theorem statusAfter_status {f : InFlight} {s t : State} (h : resume f s = .next t) (hdone : t.inflight = none) :
    (f.statusAfter s.engine).status = s.engine.status ∨ (f.statusAfter s.engine).status = t.engine.status := by
  cases f with
  | absorb arg got =>
    rcases absorbFrom_cases h with ⟨_, rfl⟩ | hp
    · cases hdone
    · rcases absorbPayload_cases hp with ⟨hconsumed, rfl⟩ | ⟨hactive, _⟩
      · exact .inr (congrArg Engine.status (if_pos hconsumed))
      · rw [acceptPayload_engine] at hactive
        exact .inl (congrArg Engine.status (if_neg (by simp [hactive])))
  | finalize =>
    rcases execFinalize_cases h with ⟨hconsumed, rfl⟩ | ⟨_, e, he, ⟨_, rfl⟩ | ⟨_, rfl⟩⟩
    · exact .inl (status_eq_of_fields hconsumed.symm rfl rfl)
    · obtain ⟨hphase, herr, hcode⟩ := finalize_keeps he
      exact .inr (status_eq_of_fields hphase.symm herr.symm hcode.symm)
    · cases hdone

/-- Whatever is read of the STATUS of the engine shown is as before the command or as after it. -/
theorem engineShown_status {α : Type} (read : BitVec 32 → α) {f : InFlight} {s s' t : State}
    (hs : s'.engine = s.engine) (h : resume f s' = .next t) (hdone : t.inflight = none) (field : StatusField) :
    read (engineShown s f field).status = read s.engine.status ∨
      read (engineShown s f field).status = read t.engine.status := by
  rcases engineShown_cases s f field with he | he
  · rw [he, ← hs]
    exact (statusAfter_status h hdone).imp (congrArg read) (congrArg read)
  · exact .inl (by rw [he])

/-- Settles O44: a field shown is that of an engine whose STATUS is the one before the command or the one after it. -/
theorem statusDuringACommandShowsOldOrNewFields : Obligations.StatusDuringACommandShowsOldOrNewFields := by
  intro s s' t f hf hs _ h hdone old new
  have hconsumed : s.statusPort.getLsbD 0 = (engineShown s f .consumed).status.getLsbD 0 := by
    rw [statusPort_of_inflight hf, Engine.status, statusWord_getLsbD, statusWord_getLsbD]
  have herr : s.statusPort.getLsbD 1 = (engineShown s f .err).status.getLsbD 1 := by
    rw [statusPort_of_inflight hf, Engine.status, statusWord_getLsbD, statusWord_getLsbD]
  have herrcode : s.statusPort.extractLsb' 4 4 = (engineShown s f .errcode).status.extractLsb' 4 4 := by
    rw [statusPort_of_inflight hf, Engine.status, statusWord_errcode, statusWord_errcode]
  rw [hconsumed, herr, herrcode, statusPort_of_inflight hf]
  exact ⟨statusWord_getLsbD _ _ _ _ 2, engineShown_status (·.getLsbD 0) hs h hdone .consumed,
    engineShown_status (·.getLsbD 1) hs h hdone .err, engineShown_status (·.extractLsb' 4 4) hs h hdone .errcode,
    statusWord_getLsbD _ _ _ _ 3, statusWord_reserved_high _ _ _ _⟩

end Sys2Proof.Proofs
end

section
/-! The remaining statements: that the decoder and the encoder undo each other (`Spells`), the big sigmas, an ABSORB as a
whole, the constants and the order of the rounds, INIT, the hardware reset, and a placed word. -/

namespace Sys2Proof.Proofs

open Sys2Proof.Machine Sys2Proof.Laws

/-! ## Decoding what an instruction encodes to (R90 to R100) -/

@[simp] theorem opField_commandWord (op : BitVec 4) (arg : BitVec 28) : opField (commandWord op arg) = op :=
  BitVec.extractLsb'_append_eq_left

@[simp] theorem argField_commandWord (op : BitVec 4) (arg : BitVec 28) : argField (commandWord op arg) = arg :=
  BitVec.extractLsb'_append_eq_right

@[simp] theorem fnField_microOpWord (fn : BitVec 4) (sh : BitVec 5) : fnField (microOpWord fn sh) = fn := by
  rw [fnField, microOpWord, BitVec.extractLsb'_append_eq_of_le (by decide)]
  exact BitVec.extractLsb'_append_eq_left

@[simp] theorem reservedField_microOpWord (fn : BitVec 4) (sh : BitVec 5) : reservedField (microOpWord fn sh) = 0 := by
  rw [reservedField, microOpWord, BitVec.extractLsb'_append_eq_of_le (by decide)]
  exact BitVec.extractLsb'_append_eq_right

@[simp] theorem shamtField_microOpWord (fn : BitVec 4) (sh : BitVec 5) : shamtField (microOpWord fn sh) = sh :=
  BitVec.extractLsb'_append_eq_right

/-- With bits 11:5 zero a micro-op word decodes as its function code says (R99). -/
theorem decode_microOpWord {fn : BitVec 4} {sh : BitVec 5} {r : Except DecodeReject Instr}
    (h : aluFunction fn sh = some r) : decode (.uop (microOpWord fn sh)) = r := by
  simp [decode, decodeUop, h]

/-- A word with function code 0b11xx decodes to the reserved row of its other bits (R99, R100). -/
theorem decodeUop_reserved (low : BitVec 2) (rest : BitVec 12) :
    decodeUop (0b11#2 ++ low ++ rest) = .ok (.aluReserved low rest) := by
  have none_of_high : ∀ low : BitVec 2, ∀ sh : BitVec 5, aluFunction (0b11#2 ++ low) sh = none := by decide
  have hfn : fnField (0b11#2 ++ low ++ rest) = 0b11#2 ++ low := BitVec.extractLsb'_append_eq_left
  have hlow : (0b11#2 ++ low ++ rest).extractLsb' 12 2 = low := by
    rw [BitVec.extractLsb'_append_eq_of_le (by decide)]
    exact BitVec.extractLsb'_append_eq_right
  have hrest : (0b11#2 ++ low ++ rest).extractLsb' 0 12 = rest := BitVec.extractLsb'_append_eq_right
  rw [decodeUop, hfn, none_of_high, hlow, hrest]

/-- The operation codes 0x4..0xF lead past the arms of the commands (R94). -/
theorem decodeCmd_of_illegal {op : BitVec 4} (h : 4 ≤ op.toNat) (arg : BitVec 28) :
    decodeCmd (commandWord op arg) =
      if op.getLsbD 3 then .illegalOp8toF (op.extractLsb' 0 3) arg else .illegalOp4to7 (op.extractLsb' 0 2) arg := by
  obtain ⟨h0, h1, h2, h3⟩ : op ≠ 0 ∧ op ≠ 1 ∧ op ≠ 2 ∧ op ≠ 3 := by revert op; decide
  rw [decodeCmd, opField_commandWord, argField_commandWord, if_neg h0, if_neg h1, if_neg h2, if_neg h3]

theorem decodeCmd_op4to7 (low : BitVec 2) (arg : BitVec 28) :
    decodeCmd (commandWord (0b01#2 ++ low) arg) = .illegalOp4to7 low arg := by
  have hop : ∀ low : BitVec 2, 4 ≤ (0b01#2 ++ low).toNat ∧ ¬(0b01#2 ++ low).getLsbD 3 := by decide
  rw [decodeCmd_of_illegal (hop low).1, if_neg (hop low).2, BitVec.extractLsb'_append_eq_right]

theorem decodeCmd_op8toF (low : BitVec 3) (arg : BitVec 28) :
    decodeCmd (commandWord (0b1#1 ++ low) arg) = .illegalOp8toF low arg := by
  have hop : ∀ low : BitVec 3, 4 ≤ (0b1#1 ++ low).toNat ∧ (0b1#1 ++ low).getLsbD 3 := by decide
  rw [decodeCmd_of_illegal (hop low).1, if_pos (hop low).2, BitVec.extractLsb'_append_eq_right]

/-- Settles O1: a command word's two fields and a micro-op word's three are read back whole, and each row's codes lead
to its own arm of the decoder. -/
theorem decodingAnEncodedInstructionGivesItBack : Obligations.DecodingAnEncodedInstructionGivesItBack := by
  intro i hwf
  cases i with
  | init | finalize => rfl
  | absorb arg | illegalOp0 arg => simp [encode, decode, decodeCmd]
  | illegalInitArg arg | illegalFinalizeArg arg =>
    have harg : arg ≠ 0 := bne_iff_ne.mp hwf
    simpa [encode, decode, decodeCmd] using harg
  | illegalOp4to7 low arg => exact congrArg Except.ok (decodeCmd_op4to7 low arg)
  | illegalOp8toF low arg => exact congrArg Except.ok (decodeCmd_op8toF low arg)
  | aluReserved low rest => exact decodeUop_reserved low rest
  | _ => exact decode_microOpWord rfl

/-! ## Encoding what a word decodes to -/

/-- `c` is the word of `i`, a well-formed instruction. -/
def Spells (c : Code) (i : Instr) : Prop := encode i = c ∧ i.wellFormed = true

/-- Each arm of the decoder of command words fixes the operation code and keeps the bits that it does not fix. -/
theorem decodeCmd_commandWord_spells (op : BitVec 4) (arg : BitVec 28) :
    Spells (.cmd (commandWord op arg)) (decodeCmd (commandWord op arg)) := by
  rw [decodeCmd, opField_commandWord, argField_commandWord]
  split_ifs with h0 h1 harg h2 h3 harg hbit
  · exact ⟨by rw [h0]; rfl, rfl⟩
  · exact ⟨by rw [h1, harg]; rfl, rfl⟩
  · exact ⟨by rw [h1]; rfl, bne_iff_ne.mpr harg⟩
  · exact ⟨by rw [h2]; rfl, rfl⟩
  · exact ⟨by rw [h3, harg]; rfl, rfl⟩
  · exact ⟨by rw [h3]; rfl, bne_iff_ne.mpr harg⟩
  · have hop : 0b1#1 ++ op.extractLsb' 0 3 = op := by revert op; decide
    exact ⟨by rw [encode, hop], rfl⟩
  · have hop : 0b01#2 ++ op.extractLsb' 0 2 = op := by revert op; decide
    exact ⟨by rw [encode, hop], rfl⟩

theorem decodeCmd_spells (w : BitVec 32) : Spells (.cmd w) (decodeCmd w) := by
  have hw : commandWord (opField w) (argField w) = w := opField_append_argField w
  exact hw ▸ decodeCmd_commandWord_spells (opField w) (argField w)

section FunctionCode
variable {n : Nat}

/-- A function other than ROTR and SHR takes no SHAMT, and its code with SHAMT 0 is the word of its row (R99). -/
theorem aluFunction_row (h : n < 4 ∨ 6 ≤ n ∧ n < 12) :
    ∃ j, (∀ sh, aluFunction (BitVec.ofNat 4 n) sh = some (withoutShamt sh j)) ∧
      Spells (.uop (microOpWord (BitVec.ofNat 4 n) 0)) j := by
  rcases h with hlt | ⟨hlo, hhi⟩
  · interval_cases n <;> exact ⟨_, fun _ => rfl, rfl, rfl⟩
  · interval_cases n <;> exact ⟨_, fun _ => rfl, rfl, rfl⟩

/-- What a function code and a SHAMT name is spelled by their word: SHAMT is kept, or it is 0. -/
theorem aluFunction_spells (hn : n < 12) {sh : BitVec 5} {i : Instr}
    (h : aluFunction (BitVec.ofNat 4 n) sh = some (.ok i)) : Spells (.uop (microOpWord (BitVec.ofNat 4 n) sh)) i := by
  obtain rfl | rfl | hrow : n = 4 ∨ n = 5 ∨ (n < 4 ∨ 6 ≤ n ∧ n < 12) := by omega
  · obtain rfl : .aluRotr sh = i := Except.ok.inj (Option.some.inj h)
    exact ⟨rfl, rfl⟩
  · obtain rfl : .aluShr sh = i := Except.ok.inj (Option.some.inj h)
    exact ⟨rfl, rfl⟩
  · obtain ⟨j, hj, hspells⟩ := aluFunction_row hrow
    rw [hj, withoutShamt] at h
    split at h
    · rename_i hsh
      cases h
      exact hsh ▸ hspells
    · cases h

end FunctionCode

theorem microOpWord_fields {w : BitVec 16} (h : reservedField w = 0) :
    microOpWord (fnField w) (shamtField w) = w := by
  have hmid : 0#7 = reservedField w := h.symm
  rw [microOpWord, hmid, fnField, reservedField, shamtField,
    BitVec.extractLsb'_append_extractLsb'_eq_extractLsb' (by decide),
    BitVec.extractLsb'_append_extractLsb'_eq_extractLsb' (by decide)]
  exact BitVec.extractLsb'_eq_self

/-- A word with a reserved function code has 0b11 at its top (R99, R100). -/
theorem reserved_fields {w : BitVec 16} (h : 12 ≤ w.toNat / 2 ^ 12) :
    0b11#2 ++ w.extractLsb' 12 2 ++ w.extractLsb' 0 12 = w := by
  have htop : 0b11#2 = w.extractLsb' 14 2 := by
    have hw : w.toNat < 2 ^ 16 := w.isLt
    apply BitVec.eq_of_toNat_eq
    simp only [BitVec.extractLsb'_toNat, Nat.shiftRight_eq_div_pow, BitVec.toNat_ofNat]
    omega
  rw [htop, BitVec.extractLsb'_append_extractLsb'_eq_extractLsb' (by decide),
    BitVec.extractLsb'_append_extractLsb'_eq_extractLsb' (by decide)]
  exact BitVec.extractLsb'_eq_self

/-- A micro-op word that decodes is a reserved one, whose bits are all kept, or one with bits 11:5 zero. -/
theorem decodeUop_spells {w : BitVec 16} {i : Instr} (h : decodeUop w = .ok i) : Spells (.uop w) i := by
  by_cases hfn : w.toNat / 2 ^ 12 < 12
  · obtain ⟨r, hr⟩ := aluFunction_of_lt hfn (shamtField w)
    rw [decodeUop, fnField_eq, hr] at h
    dsimp only at h
    split at h
    · rename_i hreserved
      subst h
      rw [← microOpWord_fields hreserved, fnField_eq]
      exact aluFunction_spells hfn hr
    · cases h
  · rw [decodeUop_of_reserved (Nat.le_of_not_lt hfn)] at h
    cases h
    exact ⟨congrArg Code.uop (reserved_fields (Nat.le_of_not_lt hfn)), rfl⟩

/-- Settles O2: a command word always spells what it decodes to, and a micro-op word does when it decodes. -/
theorem encodingADecodedWordGivesItBack : Obligations.EncodingADecodedWordGivesItBack := by
  intro c i h
  cases c with
  | cmd w =>
    cases h
    exact decodeCmd_spells w
  | uop w => exact decodeUop_spells h

/-! ## The big sigmas (R194, R195) -/

/-- Bit i of Σ0. -/
theorem bsig0_bit (a : Word) {i : Nat} (hi : i < 32) : (Alu.bsig0 a).getLsbD i =
    (a.getLsbD ((i + 2) % 32) ^^ a.getLsbD ((i + 13) % 32) ^^ a.getLsbD ((i + 22) % 32)) := by
  rw [Alu.bsig0, xor_bit, xor_bit, rotr_bit a 2 hi, rotr_bit a 13 hi, rotr_bit a 22 hi]
  rfl

/-- Bit i of Σ1. -/
theorem bsig1_bit (a : Word) {i : Nat} (hi : i < 32) : (Alu.bsig1 a).getLsbD i =
    (a.getLsbD ((i + 6) % 32) ^^ a.getLsbD ((i + 11) % 32) ^^ a.getLsbD ((i + 25) % 32)) := by
  rw [Alu.bsig1, xor_bit, xor_bit, rotr_bit a 6 hi, rotr_bit a 11 hi, rotr_bit a 25 hi]
  rfl

/-- Settles O12: `bsig0_bit`, and the function evaluated on the four words. -/
theorem aluBsig0MixesThreeRotations : Obligations.AluBsig0MixesThreeRotations :=
  ⟨by decide, _, putsOnY_bsig0, fun a _ _ _ hi => bsig0_bit a hi, fun _ _ => ⟨rfl, rfl, rfl, rfl⟩⟩

/-- Settles O13: `bsig1_bit`, and the function evaluated on the four words. -/
theorem aluBsig1MixesThreeRotations : Obligations.AluBsig1MixesThreeRotations :=
  ⟨by decide, _, putsOnY_bsig1, fun a _ _ _ hi => bsig1_bit a hi, fun _ _ => ⟨rfl, rfl, rfl, rfl⟩⟩

/-! ## ABSORB as a whole (R119 to R122) -/

/-- Settles O27: the engine that ABSORB leaves is `absorbed` of the buffered bytes and the payload, B + n bytes in
all. -/
theorem absorbCompressesWholeBlocksAndKeepsTheTail : Obligations.AbsorbCompressesWholeBlocksAndKeepsTheTail := by
  intro s n hinv hactive hoffered m k
  have hlen : m.length = s.engine.bufcnt.toNat + n.toNat := by
    rw [List.length_append, buffered_length hinv, List.length_take_of_le hoffered]
  have hk : m.length / 64 = k := congrArg (· / 64) hlen
  have hcnt : (absorbed s.engine m).bufcnt.toNat = m.length % 64 :=
    Nat.mod_eq_of_lt (Nat.mod_lt _ (by decide))
  refine ⟨absorbed s.engine m, exec_absorb_of_offered hinv hactive hoffered, absorbed_inv hinv m, ?_, ?_, ?_, ?_,
    hactive, rfl, rfl⟩
  · rw [← hk]; rfl
  · rw [← hk]; rfl
  · rw [hcnt, hlen]
  · rw [absorbed_buffered, hk]

/-- Absorbing no more than what is buffered changes nothing (C5). -/
theorem absorbed_buffered_self {e : Engine} (h : e.Inv) : absorbed e e.buffered = e := by
  have hlt : e.buffered.length < 64 := (buffered_length h).trans_lt (bufcnt_lt e)
  have hcnt : BitVec.ofNat 6 e.buffered.length = e.bufcnt := by
    rw [buffered_length h, BitVec.ofNat_toNat, BitVec.setWidth_eq]
  simp [absorbed, compressBlocks, Nat.div_eq_of_lt hlt, Nat.mod_eq_of_lt hlt, hcnt, ← buf_eq h]

/-- Settles O29: the payload is empty, so what is absorbed is what is buffered. -/
theorem absorbOfNothingChangesNothing : Obligations.AbsorbOfNothingChangesNothing := by
  intro s hinv hactive
  have hrun : exec (.absorb 0) s = .next (afterAbsorb s 0) := exec_absorb_of_offered hinv hactive (Nat.zero_le _)
  rw [hrun, afterAbsorb, List.take_zero, List.append_nil, absorbed_buffered_self hinv, List.drop_zero]

/-! ## The constants, and the order of the rounds (R33, R152 to R156, R178) -/

/-- Settles O20: each of the 64 entries against its prime. -/
theorem romHoldsCubeRootFractions : Obligations.RomHoldsCubeRootFractions := by
  unfold Obligations.RomHoldsCubeRootFractions
  decide

/-- Settles O21: each of the 8 words against its prime. -/
theorem ivHoldsSquareRootFractions : Obligations.IvHoldsSquareRootFractions := by
  unfold Obligations.IvHoldsSquareRootFractions
  decide

/-- Settles O22: these are the equations of a round, `Alu.add` being addition of words. -/
theorem roundComputesT1AndT2 : Obligations.RoundComputesT1AndT2 := fun _ _ _ _ _ _ _ _ _ _ => rfl

/-- The rounds run in order, round t on W[t] (R153). -/
theorem rounds_eq_foldl (n : Nat) (W : List Word) (v : Vars) :
    rounds n W v = (List.range n).foldl (fun v t => round t v (wordAt W t)) v := by
  induction n with
  | zero => rfl
  | succ n ih => rw [rounds, ih, List.range_succ, List.foldl_append, List.foldl_cons, List.foldl_nil]

/-- Settles O23: the rounds as a fold, between the seeding and the update. -/
theorem compressRunsSixtyFourRoundsAndAdds : Obligations.CompressRunsSixtyFourRoundsAndAdds := by
  intro H blk v
  have hv : rounds 64 (schedule blk) (seed H) = v := rounds_eq_foldl 64 _ _
  rw [compress, hv]
  rfl

/-! ## INIT and reset (R116, R117, R240) -/

/-- INIT leaves the bytes of BUF without values (R117). -/
theorem load_engineInit (e : Engine) (j : Nat) : e.init.buf.load j = none := by
  rw [engineInit_buf, keepBelow_zero]
  rfl

/-- Settles O26: the fields that INIT writes; with ARG other than 0 the word is an error's, which writes none of them;
and the reset values are those that INIT gives. -/
theorem initPutsTheEngineInTheInitialState : Obligations.InitPutsTheEngineInTheInitialState := by
  refine ⟨rfl, fun s => ?_, fun s arg harg => ⟨?_, ?_⟩, rfl, fun s => rfl⟩
  · exact ⟨_, rfl, rfl, rfl, rfl, rfl, load_engineInit s.engine, rfl, rfl, rfl⟩
  · exact decodingAnEncodedInstructionGivesItBack (.illegalInitArg arg) (bne_iff_ne.mpr harg)
  · refine ⟨s.raise .nonzeroArg, rfl, recordError_h _ _, recordError_len _ _, recordError_bufcnt _ _,
      recordError_phase _ _, recordError_buf _ _, recordError_err _ _, fun herr => ?_⟩
    rw [raise_engine, recordError_errcode, herr]
    rfl

/-- Settles O53: the reset values, the ports of a machine with nothing in flight and reset asserted, and the step of
one. -/
theorem resetGivesTheResetValues : Obligations.ResetGivesTheResetValues := by
  intro s t
  have hport : t.statusPort = Engine.reset.status := statusPort_of_idle rfl
  have hstep : step t = .next t := step_of_rst rfl
  exact ⟨rfl, rfl, rfl, rfl, rfl, rfl, fun _ => rfl, rfl, rfl, rfl, rfl, rfl, hport, hstep, rfl⟩

/-! ## A word placed where the next step takes it (log entries 2 and 14) -/

/-- Settles O52: a placed command word is the one that a ready machine has at the head of its channel, and a placed
micro-op word the one that is issued. -/
theorem placedWordIsRunNext : Obligations.PlacedWordIsRunNext := by
  refine fun s => ⟨fun w => ?_, fun w i hi => ?_⟩
  · have hplaced : s.withFetchWord 32 w.toNat = s.withCommand w := by simp [State.withFetchWord]
    rw [hplaced]
    exact step_command (s := s.withCommand w) ⟨rfl, rfl, rfl⟩ rfl
  · have hplaced : s.withFetchWord 16 w.toNat = s.withMicroOp w := by simp [State.withFetchWord]
    have hdecode : decodeUop w = .ok i := hi
    rw [hplaced, step_microOp (s := s.withMicroOp w) rfl rfl, hdecode]
    rfl

end Sys2Proof.Proofs
end
